-- ==== Sys2Proof/Word.lean ====
section
/-! DEFINITION. The word types of the block: an 8-bit register or source entry, the 32-bit hash and
response data, the 64-bit command word. Spec: 00_scope.md R7, R8, R10 (every value is unsigned). -/

namespace Sys2Proof

/-- One register or one merge-source entry (REG_W = 8, R7). -/
abbrev Byte := BitVec 8

/-- The hash, the CLZ operand, the response data (HASH_W = 32, RSP_DATA_W = 32; R7, R8). -/
abbrev Word32 := BitVec 32

/-- A command word CW (CW_W = 64, R8, R60). -/
abbrev Word64 := BitVec 64

end Sys2Proof
end

