-- ==== Sys2Proof/Config.lean ====
section
/-! DEFINITION. What the block's implementation fixes, and the one free value. Spec: 00_scope.md R7, R8;
20_memory.md R44, R45. The latencies are plain data in State (`Latencies`, notes/assumptions/6.md). -/

namespace Sys2Proof

/-- P_MIN, the least legal precision (R7). -/
def Config.pMin : Nat := 4

/-- P_MAX, the greatest legal precision (R7). -/
def Config.pMax : Nat := 16

/-- REG_PHYS, the number of physical 8-bit entries, and the number of indices MS_ADDR_W = 16 bits can
name on the merge-source port (R8). -/
def Config.regPhys : Nat := 65536

/-- FREE VALUE (notes/assumptions/8.md): which index, if any, a MERGE drives on ms_addr in a cycle, from PREC and the
cycles since acceptance. The spec leaves the order, the repetition and the timing of the reads open
(20_memory.md R45, 43_merge.md R111). Only the output pin reads it; no next state depends on it. -/
opaque Config.msAddrChoice : Nat → Nat → Option (BitVec 16)

end Sys2Proof
end

