-- ==== Sys2Proof/Syntax.lean ====
section
/-! DEFINITION. The six commands, one constructor per row of spec/opcode_table.json. Spec: 30_encoding.md
R61, R62, R70: an operand taken from ARG is an unsigned integer, one taken from DATA is a 32-bit value. -/

namespace Sys2Proof

/-- The command a word names, without its operand (30_encoding.md R70). -/
inductive Op where
  | init | add | merge | read | clz | rdcfg
  deriving DecidableEq, Repr

/-- A command with its operand (R62). -/
inductive Instr where
  /-- INIT p: construct a counter of precision p (40_construction.md R81). -/
  | init (p : Nat)
  /-- ADD h: add the pre-hashed value h (41_add.md R94). -/
  | add (h : Word32)
  /-- MERGE q: register-wise max with the merge source, whose precision is q (43_merge.md R110). -/
  | merge (q : Nat)
  /-- READ i: read register i (44_readout.md R120). -/
  | read (i : Nat)
  /-- CLZ x: count the leading zeros of x (42_clz.md R102). -/
  | clz (x : Word32)
  /-- RDCFG: read the configuration word (40_construction.md R84). -/
  | rdcfg
  deriving DecidableEq, Repr

/-- The command an instruction is. -/
def Instr.op : Instr → Op
  | .init _ => .init
  | .add _ => .add
  | .merge _ => .merge
  | .read _ => .read
  | .clz _ => .clz
  | .rdcfg => .rdcfg

end Sys2Proof
end

