-- ==== Sys2Proof/Machine/State.lean ====
section
/-! DEFINITION. All the state the spec gives the block, as plain data, and the state after reset. Spec:
10_state.md R20 (the architectural state), R30 (hidden state); 20_memory.md R41, R44; 30_encoding.md R66,
R67; 70_reset_and_hazards.md R151, R154, R160, R165. -/

namespace Sys2Proof.Machine

/-- The outcome of a command, RSP_STATUS (30_encoding.md R67). -/
inductive Status where
  | ok | invalidPrecision | precisionMismatch | notConfigured | indexRange | illegal
  deriving DecidableEq, Repr

/-- A response: two fields given together (R66). -/
structure Response where
  status : Status
  data : Word32
  deriving DecidableEq, Repr

/-- An accepted command whose response has not been taken (70 R157: at most one). -/
structure InFlight where
  /-- The command; none for a word that does not decode (R72). -/
  op : Option Op
  /-- Rising edges passed since the edge that accepted it. -/
  age : Nat
  /-- The response it gives (R156). -/
  rsp : Response
  deriving DecidableEq, Repr

/-- An indexed 8-bit space (REG or the merge source, 20_memory.md R40): (index, byte) cells, indices
strictly rising, no cell that holds what an unlisted index reads as (notes/assumptions/2.md). -/
abbrev Memory := List Host.Cell

/-- DESIGN CHOICE (notes/assumptions/1.md, 2.md, 3.md): what an index that is not listed reads as. -/
def Memory.unlisted : Byte := 0#8

/-- The canonical form: indices strictly rising, no listed cell equal to the unlisted value, every index
inside the physical storage (00_scope.md R8: 65536 entries). -/
abbrev Memory.wf (m : Memory) : Prop :=
  m.Pairwise (fun a b => a.1 < b.1) ∧ (∀ c ∈ m, c.2 ≠ Memory.unlisted) ∧ (∀ c ∈ m, c.1 < Config.regPhys)

/-- What the host drives during one cycle, sampled at the rising edge that ends it (70 R154). -/
structure Edge where
  /-- rst_n, active low (R150). -/
  rstN : Bool
  /-- cmd_valid (R155). -/
  cmdValid : Bool
  /-- cmd_word, CW at this edge (R155). -/
  cmdWord : Word64
  /-- rsp_ready (R156). -/
  rspReady : Bool
  /-- The merge-source array the host puts behind ms_data from this cycle on; none: the one it had
  (20_memory.md R44; notes/assumptions/3.md). -/
  newSrc : Option (List Host.Cell)
  deriving DecidableEq, Repr

/-- The latencies of 70 R160, in cycles: implementation parameters, so the step only reads them. INIT's and
MERGE's may grow with M, so they are listed by PREC (a precision not listed has latency 1). A value 0 counts
as 1, the least the spec allows. -/
structure Latencies where
  init : List Nat
  add : Nat
  merge : List Nat
  read : Nat
  clz : Nat
  rdcfg : Nat
  /-- For a word that does not decode: the spec lists no name for it (notes/assumptions/6.md). -/
  illegal : Nat
  deriving DecidableEq, Repr

/-- The machine. -/
structure State where
  /-- CFG_VALID (10_state.md R21). -/
  cfgValid : Bool
  /-- PREC (R22). -/
  prec : BitVec 5
  /-- REG, all physical entries (R26). -/
  reg : Memory
  /-- The command in flight (R30; 70 R156, R157). -/
  inFlight : Option InFlight
  /-- The merge source: what ms_data reads at each index (20_memory.md R44). The host's. -/
  src : Memory
  /-- The host's input at the coming edges, next first; after the last, an idle host (70 R148, R158). -/
  pins : List Edge
  /-- The responses taken since reset, first to last: the observation of a run (R165). The host's. -/
  taken : List Response
  /-- LAT_* (R160), fixed for the machine. -/
  lat : Latencies
  deriving DecidableEq, Repr

/-- Why the machine would stop with a fault. No step raises one: an error never stops the block
(60_exceptions.md R132). -/
inductive Fault where
  /-- A response carries the reserved status code 6 or 7. Raised by the decoder of a response's pins
  (`readResponse`), never by a step (93_implementation_defined.md U9). Safe. -/
  | reservedStatus (code : BitVec 3)
  deriving DecidableEq, Repr

/-- Why a step has no meaning. -/
inductive Refusal where
  /-- An instruction whose meaning is not written. No arm of exec answers it. Safe. -/
  | notModelled (mnemonic : String)
  /-- The host changed the merge source between the acceptance of a MERGE that passed its checks and the
  edge that takes its response. Raised by the step; 70 R162: the model "has no step for a changing source".
  Safe. -/
  | mergeSourceChanged
  deriving DecidableEq, Repr

/-- DESIGN CHOICE (notes/assumptions/6.md): every latency at its least value. -/
def Latencies.least : Latencies :=
  { init := [], add := 1, merge := [], read := 1, clz := 1, rdcfg := 1, illegal := 1 }

/-- The state after reset (70 R151): CFG_VALID and PREC 0, nothing in flight. REG is unspecified there and
holds zeros here (notes/assumptions/1.md); the host's side is empty (3.md, 4.md, 10.md). -/
def State.reset : State :=
  { cfgValid := false
    prec := 0#5
    reg := []
    inFlight := none
    src := []
    pins := []
    taken := []
    lat := Latencies.least }

end Sys2Proof.Machine
end

