-- ==== Sys2Proof/Machine/Operands.lean ====
section
/-! DEFINITION. The values a command computes from its operand and the precision: M, MASK, the index, the
leading-zero count, the rank, the unsigned maximum. Spec: 10_state.md R23, R24; 41_add.md R91 to R93;
42_clz.md R100. -/

namespace Sys2Proof.Machine

/-- M = 2^PREC, the register count (R23). -/
def regCount (s : State) : Nat := 2 ^ s.prec.toNat

/-- MASK = 0xFFFFFFFF >> PREC (R24). -/
def maskOf (prec : Nat) : Word32 := 0xFFFFFFFF#32 >>> prec

/-- The scan of R100 from bit k-1 down to bit 0: the zeros met before the first 1. -/
def clzScan (x : Word32) : Nat → Nat
  | 0 => 0
  | k + 1 => if x.getLsbD k then 0 else clzScan x k + 1

/-- `clz32(x)` (R100): the scan starts at bit 31; 32 when x = 0. -/
def clz32 (x : Word32) : Nat := clzScan x 32

/-- The index j = h >> (32 - PREC) (R91). -/
def hashIndex (prec : Nat) (h : Word32) : Nat := (h >>> (32 - prec)).toNat

/-- The rank part u = h & MASK (R92). -/
def rankPart (prec : Nat) (h : Word32) : Word32 := h &&& maskOf prec

/-- The rank w = clz32(u) - PREC + 1 (R92). DEDUCED (notes/assumptions/16.md): clz32(u) ≥ PREC, so the
subtraction of naturals is exact. -/
def rank (prec : Nat) (h : Word32) : Nat := clz32 (rankPart prec h) - prec + 1

/-- `max(a, b)` of two unsigned bytes (00_scope.md R10). -/
def umax (a b : Byte) : Byte := if a ≤ b then b else a

end Sys2Proof.Machine
end

