-- ==== Sys2Proof/Machine/Ops.lean ====
section
/-! DEFINITION. The named operations: reading and writing one entry of an indexed space, the max-update, the
bulk operations of INIT and MERGE, the host's array, giving a response and raising an error (this block's
form of taking an exception). Spec: 20_memory.md R41 to R44; 41_add.md R93; 43_merge.md R110, R111;
30_encoding.md R66; 60_exceptions.md R133. -/

namespace Sys2Proof.Machine

/-- `REG[i]` or `SrcRead(i)`: one whole entry (00_scope.md R11). -/
def Memory.read : Memory → Nat → Byte
  | [], _ => Memory.unlisted
  | c :: m, a => if c.1 = a then c.2 else Memory.read m a

/-- A cell in front of a space, left out when it holds the unlisted value (notes/assumptions/2.md). -/
def Memory.cons (a : Nat) (v : Byte) (m : Memory) : Memory :=
  if v = Memory.unlisted then m else (a, v) :: m

/-- `REG[a] <- v` (R11), keeping the canonical form. -/
def Memory.write : Memory → Nat → Byte → Memory
  | [], a, v => Memory.cons a v []
  | c :: m, a, v =>
    if a < c.1 then Memory.cons a v (c :: m)
    else if a = c.1 then Memory.cons a v m
    else c :: Memory.write m a v

/-- `MaxUpdate(i, v)` (41_add.md R93): unsigned 8-bit compare, no clamp. -/
def Memory.maxUpdate (m : Memory) (i : Nat) (v : Byte) : Memory :=
  m.write i (umax (m.read i) v)

/-- INIT's loop, `REG[i] <- 0` for i below n (40_construction.md R81); the other entries stay
(92_eei_decisions.md D17). -/
def Memory.clearBelow (m : Memory) (n : Nat) : Memory := m.filter (fun c => decide (n ≤ c.1))

/-- MERGE's loop (43_merge.md R110): a max-update with every source entry below n. An entry the source
does not list is 0, and a max-update with 0 changes nothing; the order is immaterial (R111). -/
def Memory.maxUpdateFrom (m src : Memory) (n : Nat) : Memory :=
  src.foldl (fun r c => if c.1 < n then r.maxUpdate c.1 c.2 else r) m

/-- The array a list of cells describes: a later cell for an index wins, an index ms_addr (16 bits) cannot
name is dropped (notes/assumptions/3.md). -/
def Memory.ofCells (cells : List Host.Cell) : Memory :=
  (cells.filter (fun c => decide (c.1 < Config.regPhys))).foldl (fun m c => m.write c.1 c.2) []

/-- `respond(status, data)` (30_encoding.md R66): the command's one response, now in flight. -/
def respond (op : Option Op) (status : Status) (data : Word32) (s : State) :
    Host.Outcome State Fault Refusal :=
  .next { s with inFlight := some { op := op, age := 0, rsp := { status := status, data := data } } }

/-- `raise S()` (60_exceptions.md R133): the response (S, 0); every piece of state keeps its value. -/
def raise (op : Option Op) (status : Status) (s : State) : Host.Outcome State Fault Refusal :=
  respond op status 0#32 s

/-- The check of ADD, MERGE and READ (R135): NOT_CONFIGURED while CFG_VALID = 0, before any operand error
(R139). -/
def whenConfigured (op : Op) (s : State) (body : Host.Outcome State Fault Refusal) :
    Host.Outcome State Fault Refusal :=
  if s.cfgValid then body else raise (some op) .notConfigured s

end Sys2Proof.Machine
end

