-- ==== Sys2Proof/Machine/Flags.lean ====
section
/-! DEFINITION. The block has no flags (10_state.md R29): a command's outcome is its status. Here: the status
codes, the decoder of a response's pins, and the configuration word CFGW. Spec: 30_encoding.md R66, R67;
10_state.md R25; 93_implementation_defined.md U9, U10. -/

namespace Sys2Proof.Machine

/-- The 3-bit RSP_STATUS code (R67). -/
def statusCode : Status → BitVec 3
  | .ok => 0#3
  | .invalidPrecision => 1#3
  | .precisionMismatch => 2#3
  | .notConfigured => 3#3
  | .indexRange => 4#3
  | .illegal => 5#3

/-- The status a code names; codes 6 and 7 are reserved (R67). -/
def statusOfCode (c : BitVec 3) : Option Status :=
  match c.toNat with
  | 0 => some .ok
  | 1 => some .invalidPrecision
  | 2 => some .precisionMismatch
  | 3 => some .notConfigured
  | 4 => some .indexRange
  | 5 => some .illegal
  | _ => none

/-- The host's reading of rsp_status and rsp_data: a reserved code is a fault (U9, notes/assumptions/13.md). -/
def readResponse (code : BitVec 3) (data : Word32) : Host.Outcome Response Fault Refusal :=
  match statusOfCode code with
  | some st => .next { status := st, data := data }
  | none => .fault (.reservedStatus code)

/-- CFGW = zext_32({CFG_VALID, 3'b000, PREC}) (R25, R84). -/
def cfgWord (s : State) : Word32 := (BitVec.ofBool s.cfgValid ++ 0#3 ++ s.prec).setWidth 32

end Sys2Proof.Machine
end

