-- ==== Sys2Proof/Machine/Add.lean ====
section
/-! DEFINITION. ADD. Spec: 41_add.md R90 to R94. -/

namespace Sys2Proof.Machine

/-- ADD h (R94): max-update REG[j] with the rank w. -/
def execAdd (h : Word32) (s : State) : Host.Outcome State Fault Refusal :=
  whenConfigured .add s <|
    respond (some .add) .ok 0#32
      { s with reg := s.reg.maxUpdate (hashIndex s.prec.toNat h) (BitVec.ofNat 8 (rank s.prec.toNat h)) }

end Sys2Proof.Machine
end

