-- ==== Sys2Proof/Machine/Clz.lean ====
section
/-! DEFINITION. CLZ. Spec: 42_clz.md R102. -/

namespace Sys2Proof.Machine

/-- CLZ x (R102): reads no state, works while CFG_VALID = 0. -/
def execClz (x : Word32) (s : State) : Host.Outcome State Fault Refusal :=
  respond (some .clz) .ok (BitVec.ofNat 32 (clz32 x)) s

end Sys2Proof.Machine
end

