-- ==== Sys2Proof/Machine/Construction.lean ====
section
/-! DEFINITION. INIT and RDCFG. Spec: 40_construction.md R80 to R84. -/

namespace Sys2Proof.Machine

/-- INIT p (R81). A successful one at any time drops the old counter (R83). -/
def execInit (p : Nat) (s : State) : Host.Outcome State Fault Refusal :=
  if p < Config.pMin ∨ Config.pMax < p then raise (some .init) .invalidPrecision s
  else
    respond (some .init) .ok 0#32
      { s with prec := BitVec.ofNat 5 p, cfgValid := true, reg := s.reg.clearBelow (2 ^ p) }

/-- RDCFG (R84): works in every state. -/
def execRdcfg (s : State) : Host.Outcome State Fault Refusal :=
  respond (some .rdcfg) .ok (cfgWord s) s

end Sys2Proof.Machine
end

