-- ==== Sys2Proof/Machine/Merge.lean ====
section
/-! DEFINITION. MERGE. Spec: 43_merge.md R110 to R112. -/

namespace Sys2Proof.Machine

/-- MERGE q (R110): the source is `s.src`, fixed for the command (20_memory.md R44). -/
def execMerge (q : Nat) (s : State) : Host.Outcome State Fault Refusal :=
  whenConfigured .merge s <|
    if q ≠ s.prec.toNat then raise (some .merge) .precisionMismatch s
    else respond (some .merge) .ok 0#32 { s with reg := s.reg.maxUpdateFrom s.src (regCount s) }

end Sys2Proof.Machine
end

