-- ==== Sys2Proof/Machine/Readout.lean ====
section
/-! DEFINITION. READ. Spec: 44_readout.md R120. -/

namespace Sys2Proof.Machine

/-- READ i (R120): the register zero-extended to 32 bits. -/
def execRead (i : Nat) (s : State) : Host.Outcome State Fault Refusal :=
  whenConfigured .read s <|
    if regCount s ≤ i then raise (some .read) .indexRange s
    else respond (some .read) .ok ((s.reg.read i).setWidth 32) s

end Sys2Proof.Machine
end

