-- ==== Sys2Proof/Machine/Dispatch.lean ====
section
/-! DEFINITION. One arm per command of spec/opcode_table.json. -/

namespace Sys2Proof.Machine

def exec (i : Instr) (s : State) : Host.Outcome State Fault Refusal :=
  match i with
  | .init p => Sys2Proof.Machine.execInit p s
  | .add h => Sys2Proof.Machine.execAdd h s
  | .merge q => Sys2Proof.Machine.execMerge q s
  | .read k => Sys2Proof.Machine.execRead k s
  | .clz x => Sys2Proof.Machine.execClz x s
  | .rdcfg => Sys2Proof.Machine.execRdcfg s

end Sys2Proof.Machine
end

