-- ==== Sys2Proof/WellFormed.lean ====
section
/-! DEFINITION. When a command's operand fits its field. Spec: 30_encoding.md R62 (ARG is 16 bits: 0 to
65535), R74 ("An operand that does not fit its field is an assembly error"). The 32-bit operands of ADD and
CLZ fit by their type. Being out of range for the command (INIT 3) is not ill-formed: it is an operand error
of the command (R63). -/

namespace Sys2Proof

/-- The operand fits its field. -/
def Instr.wellFormed : Instr → Bool
  | .init p => decide (p < 2 ^ 16)
  | .add _ => true
  | .merge q => decide (q < 2 ^ 16)
  | .read i => decide (i < 2 ^ 16)
  | .clz _ => true
  | .rdcfg => true

end Sys2Proof
end

