-- ==== Sys2Proof/Decode.lean ====
section
/-! DEFINITION. The decoder, total over all 2^64 command words and strict, then the encoder. Spec:
30_encoding.md R60 to R63, R70 to R72, R74; 90_conflicts.md C8 (RSV is bits 59:48, all twelve checked). -/

namespace Sys2Proof

/-- Why a word is illegal, in the order the decode of R72 finds it. -/
inductive DecodeError where
  /-- RSV, bits 59:48, is nonzero. -/
  | reservedNonzero
  /-- DATA, bits 31:0, is nonzero where R61 says it must be 0. -/
  | dataNonzero
  /-- ARG, bits 47:32, is nonzero where R61 says it must be 0. -/
  | argNonzero
  /-- OPC is 0x0 or 0x7 to 0xF (R70). -/
  | illegalOpcode
  deriving DecidableEq, Repr

/-- OPC = CW[63:60] (R61). -/
def fieldOpc (cw : Word64) : BitVec 4 := cw.extractLsb' 60 4

/-- RSV = CW[59:48] (R61). -/
def fieldRsv (cw : Word64) : BitVec 12 := cw.extractLsb' 48 12

/-- ARG = CW[47:32] (R61). -/
def fieldArg (cw : Word64) : BitVec 16 := cw.extractLsb' 32 16

/-- DATA = CW[31:0] (R61). -/
def fieldData (cw : Word64) : Word32 := cw.extractLsb' 0 32

/-- A command whose operand is ARG: DATA must be 0 (R61, R72). -/
def withArg (mk : Nat → Instr) (cw : Word64) : Except DecodeError Instr :=
  if fieldData cw = 0#32 then .ok (mk (fieldArg cw).toNat) else .error .dataNonzero

/-- A command whose operand is DATA: ARG must be 0 (R61, R72). -/
def withData (mk : Word32 → Instr) (cw : Word64) : Except DecodeError Instr :=
  if fieldArg cw = 0#16 then .ok (mk (fieldData cw)) else .error .argNonzero

/-- A command with no operand: ARG and DATA must be 0 (R61, R72). -/
def withNothing (i : Instr) (cw : Word64) : Except DecodeError Instr :=
  if fieldArg cw ≠ 0#16 then .error .argNonzero
  else if fieldData cw ≠ 0#32 then .error .dataNonzero
  else .ok i

/-- `decode(CW)` of R72. -/
def decode (cw : Word64) : Except DecodeError Instr :=
  if fieldRsv cw ≠ 0#12 then .error .reservedNonzero
  else match (fieldOpc cw).toNat with
    | 1 => withArg .init cw
    | 2 => withData .add cw
    | 3 => withArg .merge cw
    | 4 => withArg .read cw
    | 5 => withData .clz cw
    | 6 => withNothing .rdcfg cw
    | _ => .error .illegalOpcode

/-- What the decoder reads from a table word of `nbits` bits, numbered as spec/opcode_table.json numbers
them: the block's word is one 64-bit value (R46), so bit k of the table is bit k of CW. -/
def decodeTableWord (nbits w : Nat) : Option Instr :=
  match decode (BitVec.ofNat 64 (w % 2 ^ nbits)) with
  | .ok i => some i
  | .error _ => none

/-- The word with the four fields of R61: OPC, RSV = 0, ARG, DATA. -/
def assembleWord (opc : BitVec 4) (arg : BitVec 16) (data : Word32) : Word64 :=
  opc ++ 0#12 ++ arg ++ data

/-- The command word of an instruction (R74's column "encodes to"). An operand that does not fit its
field is not encoded faithfully: `Instr.wellFormed` says when it fits, and the assembler checks it. -/
def encode : Instr → Word64
  | .init p => assembleWord 0x1#4 (BitVec.ofNat 16 p) 0#32
  | .add h => assembleWord 0x2#4 0#16 h
  | .merge q => assembleWord 0x3#4 (BitVec.ofNat 16 q) 0#32
  | .read i => assembleWord 0x4#4 (BitVec.ofNat 16 i) 0#32
  | .clz x => assembleWord 0x5#4 0#16 x
  | .rdcfg => assembleWord 0x6#4 0#16 0#32

/-- One row of R71: a word selects it when `CW & mask = match`. -/
structure Row where
  op : Op
  pattern : Word64
  mask : Word64
  deriving DecidableEq, Repr

/-- The row `cw` selects (R71). -/
def Row.selects (r : Row) (cw : Word64) : Bool := cw &&& r.mask == r.pattern

/-- The exact bit patterns of R71, in the table's order. -/
def encodingTable : List Row :=
  [ ⟨.init, 0x1000000000000000#64, 0xFFFF0000FFFFFFFF#64⟩,
    ⟨.add, 0x2000000000000000#64, 0xFFFFFFFF00000000#64⟩,
    ⟨.merge, 0x3000000000000000#64, 0xFFFF0000FFFFFFFF#64⟩,
    ⟨.read, 0x4000000000000000#64, 0xFFFF0000FFFFFFFF#64⟩,
    ⟨.clz, 0x5000000000000000#64, 0xFFFFFFFF00000000#64⟩,
    ⟨.rdcfg, 0x6000000000000000#64, 0xFFFFFFFFFFFFFFFF#64⟩ ]

end Sys2Proof
end

