-- ==== Sys2Proof/Machine/Interface.lean ====
section
/-! DEFINITION. One rising clock edge: reset, the command handshake, the response handshake, the latencies and
the merge-source port. Spec: 70_reset_and_hazards.md R150 to R160, R162; 20_memory.md R44. -/

namespace Sys2Proof.Machine

/-- A host that drives nothing: no reset, no command, no response taken (70 R158). -/
def idleEdge : Edge :=
  { rstN := true, cmdValid := false, cmdWord := 0#64, rspReady := false, newSrc := none }

/-- What the host drives at the coming edge (notes/assumptions/4.md). -/
def currentEdge (s : State) : Edge := s.pins.headD idleEdge

/-- LAT of the command in flight (R160); at least 1. -/
def latency (s : State) (op : Option Op) : Nat :=
  max 1 (match op with
    | some .init => s.lat.init.getD s.prec.toNat 1
    | some .add => s.lat.add
    | some .merge => s.lat.merge.getD s.prec.toNat 1
    | some .read => s.lat.read
    | some .clz => s.lat.clz
    | some .rdcfg => s.lat.rdcfg
    | none => s.lat.illegal)

/-- cmd_ready at an edge (R157): out of reset, nothing in flight. -/
def cmdReady (s : State) (e : Edge) : Bool := e.rstN && s.inFlight.isNone

/-- Whether a command in flight has reached its latency: at the k-th edge after its acceptance its age is
k - 1 (R156, R160). -/
def reachedLatency (s : State) (f : InFlight) : Bool := decide (latency s f.op ≤ f.age + 1)

/-- rsp_valid with rsp_status and rsp_data (R154, R156). None while rsp_valid = 0, in reset also (R150;
notes/assumptions/9.md). -/
def rspOut (s : State) (e : Edge) : Option Response :=
  match s.inFlight with
  | none => none
  | some f => if e.rstN && reachedLatency s f then some f.rsp else none

/-- rsp_valid (R154). -/
def rspValid (s : State) (e : Edge) : Bool := (rspOut s e).isSome

/-- The code on rsp_status while rsp_valid = 1 (R154, R67). -/
def rspStatusPins (s : State) (e : Edge) : Option (BitVec 3) := (rspOut s e).map (fun r => statusCode r.status)

/-- The value on rsp_data while rsp_valid = 1 (R154). -/
def rspDataPins (s : State) (e : Edge) : Option Word32 := (rspOut s e).map (fun r => r.data)

/-- A MERGE that passed its checks is in flight: the only time the block reads the source (20_memory.md
R44, 43_merge.md R110). -/
def mergeReading (s : State) : Bool :=
  match s.inFlight with
  | some f => decide (f.op = some .merge) && decide (f.rsp.status = .ok)
  | none => false

/-- ms_addr (R154): driven only during such a MERGE, not in reset (R150), only with indices 0 to M-1
(20_memory.md R44); which one is a free value (notes/assumptions/8.md). -/
def msAddr (s : State) (e : Edge) : Option Nat :=
  match s.inFlight with
  | none => none
  | some f =>
    if e.rstN && mergeReading s then
      (Config.msAddrChoice s.prec.toNat f.age).map (fun a => a.toNat % regCount s)
    else none

/-- The merge source from this edge on: the host's new array, or the one it had. -/
def sourceAt (s : State) (e : Edge) : Memory :=
  match e.newSrc with
  | some cells => Memory.ofCells cells
  | none => s.src

/-- The host breaks the duty of R162: the source changes while a MERGE reads it. -/
def dutyBroken (s : State) (e : Edge) : Bool := mergeReading s && !decide (sourceAt s e = s.src)

/-- The edge is used up and the source is the one the host presents there. -/
def pastEdge (s : State) (e : Edge) : State := { s with pins := s.pins.tail, src := sourceAt s e }

/-- Reset (R150, R151, R153): the block's own state is that of reset, a command in flight is abandoned with
no response. The host's source and coming input and the implementation's latencies are not the block's to
reset (notes/assumptions/17.md). -/
def resetEdge (s : State) (e : Edge) : State :=
  { State.reset with pins := s.pins.tail, src := sourceAt s e, lat := s.lat }

/-- The host takes the response at this edge (R156): it joins the observation (R165). -/
def takeResponse (r : Response) (s : State) : State := { s with inFlight := none, taken := s.taken ++ [r] }

/-- One more cycle in flight; the response stays what it is (R156). -/
def wait (f : InFlight) (s : State) : State := { s with inFlight := some { f with age := f.age + 1 } }

/-- What an edge asks of the step. -/
inductive EdgeAction where
  /-- No command is accepted at this edge; the state after it. -/
  | settled (s : State)
  /-- The word accepted at this edge (R155), and the state the command starts from. -/
  | accepted (cw : Word64) (s : State)
  /-- The edge has no meaning. -/
  | refused (r : Refusal)
  deriving DecidableEq, Repr

/-- One rising edge of clk, up to running the command it accepts. -/
def edgeAction (s : State) : EdgeAction :=
  let e := currentEdge s
  if !e.rstN then .settled (resetEdge s e)
  else if dutyBroken s e then .refused .mergeSourceChanged
  else match s.inFlight with
    | some f =>
      if reachedLatency s f && e.rspReady then .settled (takeResponse f.rsp (pastEdge s e))
      else .settled (wait f (pastEdge s e))
    | none =>
      if e.cmdValid then .accepted e.cmdWord (pastEdge s e) else .settled (pastEdge s e)

/-- The host's input that presents one command word for one edge. -/
def commandEdge (cw : Word64) : Edge := { idleEdge with cmdValid := true, cmdWord := cw }

/-- The host presents `cw` at the coming edge, and the block is idle: a response still in flight counts as
taken (notes/assumptions/12.md). -/
def presentWord (s : State) (cw : Word64) : State :=
  { s with
    pins := commandEdge cw :: s.pins
    inFlight := none
    taken := s.taken ++ (s.inFlight.map (fun f => f.rsp)).toList }

end Sys2Proof.Machine
end

