-- ==== Sys2Proof/Machine/Transaction.lean ====
section
/-! DEFINITION. The command transaction: the architectural step of 00_scope.md R12 on an accepted word, and
the same step as a function of the architectural state alone. -/

namespace Sys2Proof.Machine

/-- An accepted word (R12, R72): the command it decodes to, or `raise Illegal()` (60_exceptions.md R137). -/
def runWord (cw : Word64) (s : State) : Host.Outcome State Fault Refusal :=
  match decode cw with
  | .ok i => exec i s
  | .error _ => raise none .illegal s

/-- The architectural state, exactly (10_state.md R20). -/
structure Counter where
  cfgValid : Bool
  prec : BitVec 5
  reg : Memory
  deriving DecidableEq, Repr

/-- The architectural part of a state. -/
def counterOf (s : State) : Counter := { cfgValid := s.cfgValid, prec := s.prec, reg := s.reg }

/-- A state with the given architectural part and merge source, everything else as at reset. -/
def stateOf (c : Counter) (src : Memory) : State :=
  { State.reset with cfgValid := c.cfgValid, prec := c.prec, reg := c.reg, src := src }

/-- `Step(s, cw, src) -> (s', rsp)` (R12). A command always answers (60_exceptions.md R132); the last arm is
never taken. -/
def commandStep (c : Counter) (cw : Word64) (src : Memory) : Option (Counter × Response) :=
  match runWord cw (stateOf c src) with
  | .next t => t.inFlight.map (fun f => (counterOf t, f.rsp))
  | _ => none

end Sys2Proof.Machine
end

