-- ==== Sys2Proof/Machine/Step.lean ====
section
/-! DEFINITION. One step is one rising edge of clk (70_reset_and_hazards.md R154). At the edge that accepts a
command the whole command runs (00_scope.md R3, R12; notes/assumptions/5.md). -/

namespace Sys2Proof.Machine

def step (s : State) : Host.Outcome State Fault Refusal :=
  match edgeAction s with
  | .settled t => .next t
  | .accepted cw t => runWord cw t
  | .refused r => .refused r

/-- The table word `w` presented on the command port at the very next edge. -/
def State.withFetchWord (s : State) (nbits w : Nat) : State :=
  presentWord s (BitVec.ofNat 64 (w % 2 ^ nbits))

end Sys2Proof.Machine
end

