-- ==== Sys2Proof/Machine/Assembler.lean ====
section
/-! DEFINITION. The spec's assembler syntax, one command a line. Spec: 30_encoding.md R74. A line is a list of
characters. Lexical details the spec leaves open: notes/assumptions/14.md. -/

namespace Sys2Proof.Machine

/-- Why a line does not assemble. -/
inductive AsmError where
  | unknownMnemonic
  | operandCount
  | badNumber
  /-- "An operand that does not fit its field is an assembly error; the assembler never truncates." -/
  | doesNotFit
  deriving DecidableEq, Repr

/-- A line's meaning: a command, or a 64-bit word as given. -/
inductive Line where
  | command (i : Instr)
  | word (w : Nat)
  deriving DecidableEq, Repr

/-- What a line encodes to (R74); the operand must fit its field. -/
def encodeLine : Line → Except AsmError Word64
  | .command i => if i.wellFormed then .ok (encode i) else .error .doesNotFit
  | .word w => if w < 2 ^ 64 then .ok (BitVec.ofNat 64 w) else .error .doesNotFit

/-- `;` starts a comment: the line before it. -/
def stripComment : List Char → List Char
  | [] => []
  | c :: cs => if c = ';' then [] else c :: stripComment cs

/-- ASCII capital of a letter, for the case-insensitive mnemonic. -/
def upper (c : Char) : Char := if 'a' ≤ c ∧ c ≤ 'z' then Char.ofNat (c.toNat - 32) else c

/-- The line's words, split at spaces and tabs; `acc` is the word being read, last character first. -/
def splitWords : List Char → List Char → List (List Char)
  | [], [] => []
  | [], acc => [acc.reverse]
  | c :: cs, acc =>
    if c = ' ' ∨ c = '\t' then (if acc = [] then splitWords cs [] else acc.reverse :: splitWords cs [])
    else splitWords cs (c :: acc)

/-- The value of a digit in base 10 or 16. -/
def digitValue (base : Nat) (c : Char) : Option Nat :=
  let d := if '0' ≤ c ∧ c ≤ '9' then some (c.toNat - 48)
    else if 'A' ≤ upper c ∧ upper c ≤ 'F' then some ((upper c).toNat - 55)
    else none
  d.bind (fun n => if n < base then some n else none)

/-- A digit string's value after the digits already read into `acc`. -/
def readDigits (base : Nat) : List Char → Nat → Option Nat
  | [], acc => some acc
  | c :: cs, acc => (digitValue base c).bind (fun d => readDigits base cs (acc * base + d))

/-- A number, decimal or `0x` hexadecimal (R74). -/
def readNumber : List Char → Option Nat
  | [] => none
  | '0' :: x :: cs => if upper x = 'X' then (if cs = [] then none else readDigits 16 cs 0) else readDigits 10 (x :: cs) 0
  | cs => readDigits 10 cs 0

/-- A line with one numeric operand. -/
def oneOperand (mk : Nat → Except AsmError Line) : List (List Char) → Except AsmError (Option Line)
  | [w] =>
    match readNumber w with
    | some n => (mk n).map some
    | none => .error .badNumber
  | _ => .error .operandCount

/-- A 32-bit operand: it must fit DATA. -/
def dataOperand (mk : Word32 → Instr) (n : Nat) : Except AsmError Line :=
  if n < 2 ^ 32 then .ok (.command (mk (BitVec.ofNat 32 n))) else .error .doesNotFit

/-- A line's meaning (R74); none for an empty or comment line. -/
def parseLine (text : List Char) : Except AsmError (Option Line) :=
  match splitWords (stripComment text) [] with
  | [] => .ok none
  | m :: ws =>
    let name := m.map upper
    if name = ['I', 'N', 'I', 'T'] then oneOperand (fun n => .ok (.command (.init n))) ws
    else if name = ['A', 'D', 'D'] then oneOperand (dataOperand .add) ws
    else if name = ['M', 'E', 'R', 'G', 'E'] then oneOperand (fun n => .ok (.command (.merge n))) ws
    else if name = ['R', 'E', 'A', 'D'] then oneOperand (fun n => .ok (.command (.read n))) ws
    else if name = ['C', 'L', 'Z'] then oneOperand (dataOperand .clz) ws
    else if name = ['R', 'D', 'C', 'F', 'G'] then
      (if ws = [] then .ok (some (.command .rdcfg)) else .error .operandCount)
    else if name = ['.', 'W', 'O', 'R', 'D'] then oneOperand (fun n => .ok (.word n)) ws
    else .error .unknownMnemonic

/-- A line assembled: its word, or none for an empty or comment line. -/
def assembleLine (text : List Char) : Except AsmError (Option Word64) :=
  match parseLine text with
  | .error e => .error e
  | .ok none => .ok none
  | .ok (some l) => (encodeLine l).map some

/-- A program listing, one command a line, assembled in order. -/
def assembleProgram : List (List Char) → Except AsmError (List Word64)
  | [] => .ok []
  | l :: ls =>
    match assembleLine l with
    | .error e => .error e
    | .ok w => (assembleProgram ls).map (fun ws => w.toList ++ ws)

end Sys2Proof.Machine
end

