-- ==== Sys2Proof/Safety.lean ====
section
/-! DEFINITION. The terms claims use: the invariant of a state, what a command's answer is, what stays
unchanged, the observation of a run, the commands a run accepts, what an assembler line says. Spec: 10_state.md
R20, R26; 30_encoding.md R66, R74; 70_reset_and_hazards.md R159, R162, R165. -/

namespace Sys2Proof.Machine

/-- RSP_DATA is 0 whenever RSP_STATUS is not OK (R66). -/
abbrev Response.wf (r : Response) : Prop := r.status = .ok ∨ r.data = 0#32

/-- The legal configurations (R20): PREC is 0 before construction and 4 to 16 after. -/
abbrev legalConfig (s : State) : Prop :=
  (s.cfgValid = false ∧ s.prec = 0#5) ∨ (s.cfgValid = true ∧ 4 ≤ s.prec.toNat ∧ s.prec.toNat ≤ 16)

/-- Every response since reset, given and taken or still in flight, in acceptance order. -/
def history (s : State) : List Response := s.taken ++ (s.inFlight.map (fun f => f.rsp)).toList

/-- What every state a run can reach satisfies: both spaces canonical and inside the physical storage, a
legal configuration, every response of the form R66 gives. -/
abbrev State.Inv (s : State) : Prop :=
  s.reg.wf ∧ s.src.wf ∧ legalConfig s ∧ ∀ r ∈ history s, r.wf

/-- A step of a safe run gives a next state. -/
abbrev safeStep (s : State) : Prop := ∃ t, step s = .next t

/-- The command just run answers (status, data), and its response is in flight (R66, R156). -/
abbrev Answers (t : State) (op : Option Op) (status : Status) (data : Word32) : Prop :=
  t.inFlight = some { op := op, age := 0, rsp := { status := status, data := data } }

/-- The host's side and the parameters are unchanged: a command writes none of them. -/
abbrev SameHostSide (s t : State) : Prop :=
  t.src = s.src ∧ t.pins = s.pins ∧ t.taken = s.taken ∧ t.lat = s.lat

/-- The architectural state is unchanged (R20). -/
abbrev SameCounter (s t : State) : Prop :=
  t.cfgValid = s.cfgValid ∧ t.prec = s.prec ∧ t.reg = s.reg

/-- The observation of a run (R165): the responses taken and CFG_VALID, PREC, REG[0..M-1]. -/
structure Observation where
  responses : List Response
  cfgValid : Bool
  prec : BitVec 5
  regs : List Byte
  deriving DecidableEq, Repr

/-- The observation at the end of a run; M is defined only while CFG_VALID = 1 (10_state.md R23). -/
def observe (s : State) : Observation :=
  { responses := s.taken
    cfgValid := s.cfgValid
    prec := s.prec
    regs := if s.cfgValid then (List.range (regCount s)).map s.reg.read else [] }

/-- Equal but for register entries that are not architectural: the registers agree below M while a counter
exists (10_state.md R26). -/
def sameButHiddenRegs (s t : State) : Prop :=
  t.cfgValid = s.cfgValid ∧ t.prec = s.prec ∧ t.inFlight = s.inFlight ∧ t.src = s.src ∧ t.pins = s.pins ∧
  t.taken = s.taken ∧ t.lat = s.lat ∧
  (s.cfgValid = true → ∀ a, a < regCount s → t.reg.read a = s.reg.read a)

/-- The command word accepted at the coming edge, with the merge source it sees. -/
def acceptedAt (s : State) : Option (Word64 × Memory) :=
  match edgeAction s with
  | .accepted cw t => some (cw, t.src)
  | _ => none

/-- The commands accepted in the next `k` edges, in acceptance order (20_memory.md R48). -/
def acceptedIn : Nat → State → List (Word64 × Memory)
  | 0, _ => []
  | k + 1, s =>
    (acceptedAt s).toList ++
      match step s with
      | .next t => acceptedIn k t
      | _ => []

/-- The transactions of R12 on a list of accepted commands, one after another, collecting the responses. -/
def runCommands : List (Word64 × Memory) → Counter → List Response → Option (Counter × List Response)
  | [], c, rs => some (c, rs)
  | (cw, src) :: rest, c, rs =>
    (commandStep c cw src).bind (fun cr => runCommands rest cr.1 (rs ++ [cr.2]))

/-- The words of one opcode: the legal ones decode to the command, every other is illegal (30_encoding.md
R71, R72). -/
def WordsOf (opc : BitVec 4) (legal : Word64 → Prop) (i : Word64 → Instr) : Prop :=
  ∀ cw : Word64, cw.extractLsb' 60 4 = opc →
    (legal cw → decode cw = .ok (i cw)) ∧ (¬ legal cw → ∃ e, decode cw = .error e)

/-- RSV and DATA are 0 (R61: the words of INIT, MERGE, READ). -/
def argOnly (cw : Word64) : Prop := cw.extractLsb' 48 12 = 0#12 ∧ cw.extractLsb' 0 32 = 0#32

/-- RSV and ARG are 0 (R61: the words of ADD, CLZ). -/
def dataOnly (cw : Word64) : Prop := cw.extractLsb' 48 12 = 0#12 ∧ cw.extractLsb' 32 16 = 0#16

/-- The status an accepted word answers: the first cause in the order of 60_exceptions.md R139. -/
def statusInPriority (cw : Word64) (s : State) : Status :=
  match decode cw with
  | .error _ => .illegal
  | .ok (.init p) => if p < 4 ∨ 16 < p then .invalidPrecision else .ok
  | .ok (.add _) => if s.cfgValid = false then .notConfigured else .ok
  | .ok (.merge q) =>
    if s.cfgValid = false then .notConfigured else if q ≠ s.prec.toNat then .precisionMismatch else .ok
  | .ok (.read k) =>
    if s.cfgValid = false then .notConfigured else if 2 ^ s.prec.toNat ≤ k then .indexRange else .ok
  | .ok (.clz _) => .ok
  | .ok .rdcfg => .ok

/-- `t` is `s` after a successful MERGE with the source `src`. -/
abbrev Merged (s : State) (src : Memory) (t : State) : Prop :=
  s.cfgValid = true ∧ exec (.merge s.prec.toNat) { s with src := src } = .next t

/-- Every architectural register is at most 33 - PREC, the largest rank (10_state.md R27). -/
abbrev rankBounded (s : State) : Prop :=
  s.cfgValid = true → ∀ a, a < regCount s → (s.reg.read a).toNat ≤ 33 - s.prec.toNat

/-- An edge that lets the command in flight go on: no reset, and the host keeps the duty of R162. While a MERGE
reads the source that means the same array; otherwise the host may put any array there. -/
abbrev undisturbed (s : State) (e : Edge) : Prop := e.rstN = true ∧ dutyBroken s e = false

/-- The line is `name` in any letter case and a number whose value is `n` (30_encoding.md R74). -/
abbrev LineOf (text name : List Char) (n : Nat) : Prop :=
  ∃ m w, splitWords (stripComment text) [] = [m, w] ∧ m.map upper = name ∧ readNumber w = some n

/-- Spaces and tabs only (notes/assumptions/14.md). -/
abbrev blanks (b : List Char) : Prop := ∀ c ∈ b, c = ' ' ∨ c = '\t'

/-- A word of a line: some characters, none of them a blank or the `;` of a comment. -/
abbrev plainWord (w : List Char) : Prop := w ≠ [] ∧ ∀ c ∈ w, c ≠ ' ' ∧ c ≠ '\t' ∧ c ≠ ';'

/-- The end of a line: nothing, or a comment (30_encoding.md R74). -/
abbrev isComment (t : List Char) : Prop := t = [] ∨ ∃ u, t = ';' :: u

/-- The line assembles to a word with `P` when its operand fits, and is the error doesNotFit otherwise. -/
abbrev AssemblesIf (fits : Prop) (text : List Char) (P : Word64 → Prop) : Prop :=
  (fits → ∃ cw, assembleLine text = .ok (some cw) ∧ P cw) ∧ (¬ fits → assembleLine text = .error .doesNotFit)

end Sys2Proof.Machine
end

