-- ==== Sys2Proof/Certificates/Slice0/Obligations.lean ====
section
/-! DEFINITION. The statements for the provers, from the numbered rules of spec/. -/

open Sys2Proof Sys2Proof.Machine

/-! ## Decoding and encoding (30_encoding.md) -/

/-- Every bit of every operand survives encoding and decoding (R61, R62). -/
def Obligations.DecodeOfEncode : Prop :=
  ∀ i : Instr, i.wellFormed = true → decode (encode i) = .ok i

/-- A word that decodes is the encoding of what it decodes to: each command has one word (R60, R71, R72). -/
def Obligations.EncodeOfDecode : Prop :=
  ∀ (cw : Word64) (i : Instr), decode cw = .ok i → i.wellFormed = true ∧ encode i = cw

/-- R71: a word selects a row when CW & mask = match, and then it is that command with the free field as its
operand. No word selects two rows, since a word decodes to one command. -/
def Obligations.DecodeFollowsMatchAndMask : Prop :=
  ∀ cw : Word64,
    (cw &&& 0xFFFF0000FFFFFFFF#64 = 0x1000000000000000#64 ↔
      decode cw = .ok (.init (cw.extractLsb' 32 16).toNat)) ∧
    (cw &&& 0xFFFFFFFF00000000#64 = 0x2000000000000000#64 ↔
      decode cw = .ok (.add (cw.extractLsb' 0 32))) ∧
    (cw &&& 0xFFFF0000FFFFFFFF#64 = 0x3000000000000000#64 ↔
      decode cw = .ok (.merge (cw.extractLsb' 32 16).toNat)) ∧
    (cw &&& 0xFFFF0000FFFFFFFF#64 = 0x4000000000000000#64 ↔
      decode cw = .ok (.read (cw.extractLsb' 32 16).toNat)) ∧
    (cw &&& 0xFFFFFFFF00000000#64 = 0x5000000000000000#64 ↔
      decode cw = .ok (.clz (cw.extractLsb' 0 32))) ∧
    (cw &&& 0xFFFFFFFFFFFFFFFF#64 = 0x6000000000000000#64 ↔ decode cw = .ok .rdcfg)

/-- R72, R137: a word that selects a row is that command; the illegal words are exactly those with an
unassigned OPC, a nonzero RSV or a nonzero must-be-zero field; an illegal word answers (ILLEGAL, 0) and changes
no state. -/
def Obligations.IllegalWordsAreRejected : Prop :=
  (∀ (cw : Word64) (r : Row), r ∈ encodingTable → r.selects cw = true → ∃ i, decode cw = .ok i ∧ i.op = r.op) ∧
  (∀ cw : Word64, (∃ e, decode cw = .error e) ↔
    ((cw.extractLsb' 60 4).toNat = 0 ∨ 7 ≤ (cw.extractLsb' 60 4).toNat ∨ cw.extractLsb' 48 12 ≠ 0#12 ∨
      ((cw.extractLsb' 60 4).toNat ∈ [1, 3, 4, 6] ∧ cw.extractLsb' 0 32 ≠ 0#32) ∨
      ((cw.extractLsb' 60 4).toNat ∈ [2, 5, 6] ∧ cw.extractLsb' 32 16 ≠ 0#16))) ∧
  (∀ (cw : Word64) (s : State) (e : DecodeError), decode cw = .error e →
    ∃ t, runWord cw s = .next t ∧ Answers t none .illegal 0#32 ∧ SameCounter s t ∧ SameHostSide s t)

/-- The sixteen words of 95_test_vectors.md 2.1, each with what the table lists for it. -/
def Obligations.SpecVectorWordsDecode : Prop :=
  decode 0x1000000500000000#64 = .ok (.init 5) ∧ decode 0x20000000FFFFFFFF#64 = .ok (.add 0xFFFFFFFF#32) ∧
  decode 0x3000000400000000#64 = .ok (.merge 4) ∧ decode 0x4000FFFF00000000#64 = .ok (.read 65535) ∧
  decode 0x5000000000000000#64 = .ok (.clz 0#32) ∧ decode 0x6000000000000000#64 = .ok .rdcfg ∧
  decode 0x1000000500000001#64 = .error .dataNonzero ∧ decode 0x1001000500000000#64 = .error .reservedNonzero ∧
  decode 0x2000000100000000#64 = .error .argNonzero ∧ decode 0x3001000400000000#64 = .error .reservedNonzero ∧
  decode 0x5000000100000000#64 = .error .argNonzero ∧ decode 0x6000000000000001#64 = .error .dataNonzero ∧
  decode 0x6000000100000000#64 = .error .argNonzero ∧ decode 0x0000000000000000#64 = .error .illegalOpcode ∧
  decode 0x7000000000000000#64 = .error .illegalOpcode ∧ decode 0xF000000000000000#64 = .error .illegalOpcode

/-- R74's column "encodes to": the number a command's word is (the fields do not overlap, so `|` is `+`). -/
def Obligations.EncodeIsAssemblerTable : Prop :=
  (∀ n : Nat, n < 65536 →
    (encode (.init n)).toNat = 1 * 2 ^ 60 + n * 2 ^ 32 ∧ (encode (.merge n)).toNat = 3 * 2 ^ 60 + n * 2 ^ 32 ∧
    (encode (.read n)).toNat = 4 * 2 ^ 60 + n * 2 ^ 32) ∧
  (∀ x : Word32,
    (encode (.add x)).toNat = 2 * 2 ^ 60 + x.toNat ∧ (encode (.clz x)).toNat = 5 * 2 ^ 60 + x.toNat) ∧
  encode .rdcfg = 0x6000000000000000#64

/-- R74: a line of a mnemonic and a number that fits the field assembles to a word that decodes to that command
with that number as its operand, and a number that does not fit is the error doesNotFit; `.word` gives the word of
that value. Every line that assembles to a word is one of these seven. What a blank is and how a
number may be written is notes/assumptions/14.md (DESIGN CHOICE). -/
def Obligations.AssemblerNeverTruncates : Prop :=
  (∀ (text : List Char) (n : Nat),
    (LineOf text ['I', 'N', 'I', 'T'] n → AssemblesIf (n < 2 ^ 16) text (fun cw => decode cw = .ok (.init n))) ∧
    (LineOf text ['A', 'D', 'D'] n →
      AssemblesIf (n < 2 ^ 32) text (fun cw => ∃ h : Word32, h.toNat = n ∧ decode cw = .ok (.add h))) ∧
    (LineOf text ['M', 'E', 'R', 'G', 'E'] n → AssemblesIf (n < 2 ^ 16) text (fun cw => decode cw = .ok (.merge n))) ∧
    (LineOf text ['R', 'E', 'A', 'D'] n → AssemblesIf (n < 2 ^ 16) text (fun cw => decode cw = .ok (.read n))) ∧
    (LineOf text ['C', 'L', 'Z'] n →
      AssemblesIf (n < 2 ^ 32) text (fun cw => ∃ x : Word32, x.toNat = n ∧ decode cw = .ok (.clz x))) ∧
    (LineOf text ['.', 'W', 'O', 'R', 'D'] n → AssemblesIf (n < 2 ^ 64) text (fun cw => cw.toNat = n))) ∧
  (∀ (text m : List Char), splitWords (stripComment text) [] = [m] → m.map upper = ['R', 'D', 'C', 'F', 'G'] →
    assembleLine text = .ok (some 0x6000000000000000#64)) ∧
  (∀ (text : List Char) (cw : Word64), assembleLine text = .ok (some cw) →
    (∃ n, LineOf text ['I', 'N', 'I', 'T'] n ∧ decode cw = .ok (.init n)) ∨
    (∃ h : Word32, LineOf text ['A', 'D', 'D'] h.toNat ∧ decode cw = .ok (.add h)) ∨
    (∃ n, LineOf text ['M', 'E', 'R', 'G', 'E'] n ∧ decode cw = .ok (.merge n)) ∨
    (∃ n, LineOf text ['R', 'E', 'A', 'D'] n ∧ decode cw = .ok (.read n)) ∨
    (∃ x : Word32, LineOf text ['C', 'L', 'Z'] x.toNat ∧ decode cw = .ok (.clz x)) ∨
    ((∃ m, splitWords (stripComment text) [] = [m] ∧ m.map upper = ['R', 'D', 'C', 'F', 'G']) ∧
      decode cw = .ok .rdcfg) ∨
    LineOf text ['.', 'W', 'O', 'R', 'D'] cw.toNat)

/-- R74: a number is decimal or `0x` hexadecimal: the base 10 numeral of n, and the base 16 one behind `0x`, are both
read as n, of any size and with any leading zeros. The spec writes hexadecimal digits in capitals behind a small x,
with leading zeros; that a digit may be small, the x a capital, and that zeros may lead a decimal number, is the
model's choice (notes/assumptions/14.md, DESIGN CHOICE). -/
def Obligations.NumbersAreDecimalOrHex : Prop :=
  (∀ k n : Nat, readNumber (List.replicate k '0' ++ Nat.toDigits 10 n) = some n) ∧
  (∀ n : Nat, readNumber ('0' :: 'x' :: (Nat.toDigits 16 n).map Char.toUpper) = some n) ∧
  (∀ (k n : Nat) (x : Char) (ds : List Char), x = 'x' ∨ x = 'X' →
    ds.map Char.toUpper = List.replicate k '0' ++ (Nat.toDigits 16 n).map Char.toUpper →
    readNumber ('0' :: x :: ds) = some n)

/-- R74: the mnemonic is case-insensitive (a to z read as A to Z, any other character as itself) and `;` starts a
comment; spaces stand around the words. That a tab is a blank too, and that a line may be empty, is the model's
choice (notes/assumptions/14.md, DESIGN CHOICE). With AssemblerNeverTruncates and NumbersAreDecimalOrHex this covers the way
from a line's characters to its word. -/
def Obligations.LineIsMnemonicNumberComment : Prop :=
  (∀ c : Char, upper c = c.toUpper) ∧
  (∀ m b₀ b₂ comment : List Char, plainWord m → blanks b₀ → blanks b₂ → isComment comment →
    splitWords (stripComment (b₀ ++ m ++ b₂ ++ comment)) [] = [m] ∧
    (∀ b₁ w : List Char, blanks b₁ → b₁ ≠ [] → plainWord w →
      splitWords (stripComment (b₀ ++ m ++ b₁ ++ w ++ b₂ ++ comment)) [] = [m, w])) ∧
  (∀ b₀ comment : List Char, blanks b₀ → isComment comment →
    assembleLine (b₀ ++ comment) = .ok none)

/-! ## The clock edge (70_reset_and_hazards.md) -/

/-- The step at an edge that accepts a word which decodes to `i` is `exec i`, from the state whose input has
moved on by that edge and whose merge source is the one the host presents there (R12, R155). Two of these are the
model's: that the whole effect happens at the accepting edge (notes/assumptions/5.md, DEDUCED), and that an array put
on that edge is already the command's source (19.md, DESIGN CHOICE). -/
def Obligations.StepRunsAcceptedCommand : Prop :=
  ∀ (s : State) (e : Edge) (es : List Edge) (i : Instr), s.pins = e :: es → s.inFlight = none →
    e.rstN = true → e.cmdValid = true → decode e.cmdWord = .ok i →
    step s = exec i { s with pins := es, src := sourceAt s e }

/-- R155: a command is accepted exactly where rst_n, cmd_valid and cmd_ready are 1; it is the value of cmd_word
there; what cmd_word holds at any other edge has no effect. That the step then runs the whole command
(notes/assumptions/5.md, DEDUCED), from the source put on that same edge (19.md, DESIGN CHOICE), is the model's. -/
def Obligations.AcceptanceRule : Prop :=
  ∀ (s : State) (e : Edge) (es : List Edge), s.pins = e :: es →
    ((∃ x, acceptedAt s = some x) ↔ (e.rstN = true ∧ e.cmdValid = true ∧ cmdReady s e = true)) ∧
    (∀ x, acceptedAt s = some x → x.1 = e.cmdWord ∧ step s = runWord e.cmdWord (pastEdge s e)) ∧
    (acceptedAt s = none → ∀ w : Word64, step { s with pins := { e with cmdWord := w } :: es } = step s)

/-- The state after reset (R151) and readiness at the first edge out of reset (R152). The register contents
there are the model's choice (notes/assumptions/1.md), so nothing is said of them. -/
def Obligations.ResetState : Prop :=
  State.reset.cfgValid = false ∧ State.reset.prec = 0#5 ∧ State.reset.inFlight = none ∧
  ∀ e : Edge, e.rstN = true → cmdReady State.reset e = true ∧ rspValid State.reset e = false

/-- R150: while rst_n = 0 at an edge no command is accepted, cmd_ready and rsp_valid are 0 and no merge-source
address is driven. -/
def Obligations.InResetNothingHappens : Prop :=
  ∀ (s : State) (e : Edge) (es : List Edge), s.pins = e :: es → e.rstN = false →
    acceptedAt s = none ∧ cmdReady s e = false ∧ rspValid s e = false ∧ msAddr s e = none

/-- R151, R153: an edge with rst_n = 0 gives the reset state, whatever was in flight; the abandoned command gives
no response. That the latencies and the host's side are kept is the model's reading (notes/assumptions/17.md). -/
def Obligations.ResetAbandonsCommand : Prop :=
  ∀ (s : State) (e : Edge) (es : List Edge), s.pins = e :: es → e.rstN = false →
    ∃ t, step s = .next t ∧ t.cfgValid = false ∧ t.prec = 0#5 ∧ t.inFlight = none ∧ history t = [] ∧
      (∀ e' : Edge, rspValid t e' = false) ∧ t.lat = s.lat ∧ t.src = sourceAt s e ∧ t.pins = es

/-- R26, R151: register contents left by reset, and entries at M and above, are never observed: two states
that agree on everything but those take steps to two states that again agree so. -/
def Obligations.HiddenRegistersNeverObserved : Prop :=
  ∀ s s' t : State, s.Inv → s'.Inv → sameButHiddenRegs s s' → step s = .next t →
    ∃ t', step s' = .next t' ∧ sameButHiddenRegs t t'

/-- R156: the response of the command in flight is presented unchanged until a rising edge with rsp_ready = 1
takes it; then nothing is in flight. That CFG_VALID, PREC and REG do not move while a command is in flight is the
model's reading (notes/assumptions/5.md, DEDUCED). -/
def Obligations.ResponseHeldUntilTaken : Prop :=
  ∀ (s : State) (e : Edge) (es : List Edge) (f : InFlight), s.pins = e :: es → e.rstN = true →
    dutyBroken s e = false → s.inFlight = some f →
    (∀ r, rspOut s e = some r → r = f.rsp) ∧
    (rspValid s e = true ∧ e.rspReady = true →
      ∃ t, step s = .next t ∧ t.inFlight = none ∧ t.taken = s.taken ++ [f.rsp] ∧ SameCounter s t ∧
        t.pins = es ∧ t.lat = s.lat ∧ ∀ e' : Edge, rspValid t e' = false) ∧
    (¬ (rspValid s e = true ∧ e.rspReady = true) →
      ∃ t, step s = .next t ∧ t.inFlight = some { f with age := f.age + 1 } ∧ t.taken = s.taken ∧
        SameCounter s t ∧ t.pins = es ∧ t.lat = s.lat ∧
        (rspValid s e = true → ∀ e' : Edge, e'.rstN = true → rspOut t e' = some f.rsp))

/-- R156, R160: a host that does not reset, keeps its duty and is ready at the last of the edges left of the
latency takes the response of the command in flight at exactly that edge, whatever it does before. Outside a MERGE
that passed its checks the source may change at every edge (R162). That CFG_VALID, PREC and REG do not move
meanwhile is the model's reading (notes/assumptions/5.md, DEDUCED), and an illegal word's latency is the model's
own (6.md, DESIGN CHOICE). -/
def Obligations.CommandAnsweredAfterLatency : Prop :=
  ∀ (s : State) (f : InFlight), s.inFlight = some f → f.age < latency s f.op →
    (∀ e ∈ s.pins.take (latency s f.op - f.age), undisturbed s e) →
    (∃ e, s.pins[latency s f.op - f.age - 1]? = some e ∧ e.rspReady = true) →
    ∃ t, Host.Core.run core (latency s f.op - f.age) s = .next t ∧ t.inFlight = none ∧
      t.taken = s.taken ++ [f.rsp] ∧ SameCounter s t

/-- R160: rsp_valid is 0 in every cycle before the latency is reached and 1 in the first cycle that reaches it;
a latency is at least one cycle. The edges between only have to keep rst_n = 1 and the duty of R162. That
CFG_VALID, PREC and REG do not move meanwhile is the model's reading (notes/assumptions/5.md, DEDUCED), and an
illegal word's latency is the model's own (6.md, DESIGN CHOICE). -/
def Obligations.ResponseNotBeforeLatency : Prop :=
  ∀ (s : State) (f : InFlight) (n : Nat), s.inFlight = some f → f.age + n < latency s f.op →
    (∀ e ∈ s.pins.take n, undisturbed s e) →
    ∃ t, Host.Core.run core n s = .next t ∧ t.inFlight = some { f with age := f.age + n } ∧
      t.taken = s.taken ∧ SameCounter s t ∧ 1 ≤ latency s f.op ∧
      ∀ e : Edge, e.rstN = true → (rspValid t e = true ↔ f.age + n + 1 = latency s f.op)

/-- R157: cmd_ready = 1 exactly when out of reset with nothing in flight; while a command is in flight none is
accepted; an acceptance takes cmd_ready away and taking the response gives it back. -/
def Obligations.OneCommandInFlight : Prop :=
  (∀ (s : State) (e : Edge), cmdReady s e = true ↔ (e.rstN = true ∧ s.inFlight = none)) ∧
  (∀ s : State, s.inFlight ≠ none → acceptedAt s = none) ∧
  (∀ (s : State) (x : Word64 × Memory), acceptedAt s = some x →
    ∃ t, step s = .next t ∧ ∀ e : Edge, cmdReady t e = false) ∧
  (∀ s : State, s.inFlight ≠ none → (currentEdge s).rstN = true → dutyBroken s (currentEdge s) = false →
    rspValid s (currentEdge s) = true → (currentEdge s).rspReady = true →
    ∃ t, step s = .next t ∧ ∀ e : Edge, e.rstN = true → cmdReady t e = true)

/-- R158: idle for any number of cycles, the block changes no state, whatever cmd_word, rsp_ready and the merge
source do. -/
def Obligations.IdleKeepsState : Prop :=
  ∀ (k : Nat) (s : State), s.inFlight = none →
    (∀ e ∈ s.pins.take k, e.rstN = true ∧ e.cmdValid = false) →
    ∃ t, Host.Core.run core k s = .next t ∧ SameCounter s t ∧ t.inFlight = none ∧ t.taken = s.taken ∧
      t.lat = s.lat

/-- R159, R48: over any run of edges without reset, the architectural state and the responses, in order, are
those of the transactions of R12 on the accepted commands, in acceptance order, whatever the latencies and the
idle cycles. A command still in flight at the end counts with its whole effect and its response
(notes/assumptions/5.md, DEDUCED), and each command's source is the one put on its accepting edge (19.md, DESIGN
CHOICE). -/
def Obligations.RunIsSequenceOfTransactions : Prop :=
  ∀ (k : Nat) (s t : State), (∀ e ∈ s.pins.take k, e.rstN = true) →
    Host.Core.run core k s = .next t →
    runCommands (acceptedIn k s) (counterOf s) (history s) = some (counterOf t, history t)

/-- Every single edge, from every state: a reset edge leaves no counter and no response (R151, R153); any other edge
is one transaction of R12 when it accepts a command, and otherwise changes neither CFG_VALID, PREC and REG nor the
responses given (R158, R159). The effect and the response count from the accepting edge (notes/assumptions/5.md,
DEDUCED), the source is the one put on that edge (19.md, DESIGN CHOICE), and a reset empties the record of responses
(10.md, DESIGN CHOICE). -/
def Obligations.EveryStepIsOneTransactionOrNone : Prop :=
  ∀ s t : State, step s = .next t →
    ((currentEdge s).rstN = false → t.cfgValid = false ∧ t.prec = 0#5 ∧ history t = []) ∧
    ((currentEdge s).rstN = true → acceptedAt s = none → counterOf t = counterOf s ∧ history t = history s) ∧
    (∀ x, acceptedAt s = some x →
      ∃ r, commandStep (counterOf s) x.1 x.2 = some (counterOf t, r) ∧ history t = history s ++ [r])

/-- R12: the step of a command is a total function of CFG_VALID, PREC, REG, the command word and the merge
source; nothing else of the state (what is in flight, the log of responses, the latencies, the coming input)
changes the outcome, and no status is sticky (60_exceptions.md R138). -/
def Obligations.CommandDependsOnArchitecturalState : Prop :=
  ∀ (cw : Word64) (s : State), ∃ t f, runWord cw s = .next t ∧ t.inFlight = some f ∧
    commandStep (counterOf s) cw s.src = some (counterOf t, f.rsp) ∧
    ∀ (g : Option InFlight) (pins : List Edge) (taken : List Response) (lat : Latencies),
      runWord cw { s with inFlight := g, pins := pins, taken := taken, lat := lat } =
        .next { t with pins := pins, taken := taken, lat := lat }

/-- R132, R162: no step faults; the only refusal is the host's change of the merge source while a MERGE that
passed its checks is in flight; every other step gives a next state. R162 speaks of any MERGE: that the duty is
looked at after reset, only for a MERGE that passed its checks, and that putting an equal array is no change, is the
model's reading (notes/assumptions/7.md, DEDUCED). -/
def Obligations.StepStopsOnlyOnBrokenDuty : Prop :=
  ∀ s : State,
    (∀ r, step s ≠ .fault r) ∧
    (∀ r, step s = .refused r ↔
      (r = .mergeSourceChanged ∧ (currentEdge s).rstN = true ∧
        (∃ f, s.inFlight = some f ∧ f.op = some .merge ∧ f.rsp.status = .ok) ∧
        sourceAt s (currentEdge s) ≠ s.src)) ∧
    ((∀ r, step s ≠ .refused r) → safeStep s)

/-- 20_memory.md R44: ms_addr is driven only out of reset, during a MERGE that passed its checks, and only with
an index below M. -/
def Obligations.MergeAddressBelowM : Prop :=
  (∀ (s : State) (e : Edge), msAddr s e = none ∨
    ∃ a f, msAddr s e = some a ∧ a < 2 ^ s.prec.toNat ∧ e.rstN = true ∧ s.inFlight = some f ∧
      f.op = some .merge ∧ f.rsp.status = .ok) ∧
  (∀ (s : State) (e : Edge) (f : InFlight), s.inFlight = some f →
    e.rstN = false ∨ f.op ≠ some .merge ∨ f.rsp.status ≠ .ok → msAddr s e = none)

/-! ## Invariants -/

/-- The reset state satisfies the invariant. -/
def Obligations.ResetSatisfiesInvariant : Prop := State.reset.Inv

/-- Every step keeps the invariant: both spaces canonical and inside the storage, PREC 0 before construction and
4 to 16 after (10_state.md R20, 40_construction.md R82), RSP_DATA 0 unless OK (30_encoding.md R66). -/
def Obligations.StepKeepsInvariant : Prop :=
  ∀ s t : State, s.Inv → step s = .next t → t.Inv

/-- 10_state.md R28: only reset and a successful INIT lower a register. -/
def Obligations.RegistersNeverDecrease : Prop :=
  ∀ s t : State, s.reg.wf → s.src.wf → step s = .next t → (currentEdge s).rstN = true →
    (∀ x, acceptedAt s = some x → ∀ p, 4 ≤ p → p ≤ 16 → decode x.1 ≠ .ok (.init p)) →
    ∀ a, (s.reg.read a).toNat ≤ (t.reg.read a).toNat

/-- 10_state.md R27: registers written by INIT, ADD and MERGE from a source within the bound stay in
[0, 33 - PREC]. -/
def Obligations.RegistersStayWithinRankBound : Prop :=
  ∀ s t : State, s.Inv → rankBounded s → step s = .next t →
    (∀ x, acceptedAt s = some x → ∀ q, decode x.1 = .ok (.merge q) →
      ∀ a, a < regCount s → (Memory.read x.2 a).toNat ≤ 33 - s.prec.toNat) →
    rankBounded t

/-- R163: until an INIT with p in [4, 16] is accepted, no counter exists. -/
def Obligations.NoCounterBeforeInit : Prop :=
  ∀ (k : Nat) (s t : State), s.cfgValid = false → Host.Core.run core k s = .next t →
    (∀ x ∈ acceptedIn k s, ∀ p, 4 ≤ p → p ≤ 16 → decode x.1 ≠ .ok (.init p)) → t.cfgValid = false

/-- 10_state.md R21, R22: only a successful INIT and reset write CFG_VALID and PREC, and only reset clears
CFG_VALID. -/
def Obligations.ConfigurationWrittenOnlyByInit : Prop :=
  ∀ s t : State, step s = .next t → (currentEdge s).rstN = true →
    ((∀ x, acceptedAt s = some x → ∀ p, 4 ≤ p → p ≤ 16 → decode x.1 ≠ .ok (.init p)) →
      t.cfgValid = s.cfgValid ∧ t.prec = s.prec) ∧
    (s.cfgValid = true → t.cfgValid = true)

/-- 43_merge.md R112, 20_memory.md R44: the block never writes the merge source. That the source after a step is
the one the host puts on that same edge is the model's choice (notes/assumptions/3.md, 19.md, DESIGN CHOICE). -/
def Obligations.SourceNeverWritten : Prop :=
  (∀ (i : Instr) (s t : State), exec i s = .next t → t.src = s.src) ∧
  (∀ s t : State, step s = .next t → t.src = sourceAt s (currentEdge s))

/-! ## Construction and configuration readout (40_construction.md) -/

/-- R81, R83: INIT p with p in [4, 16] constructs a counter of precision p with every register 0, whether or not
one existed; outside it answers INVALID_PRECISION and changes nothing. That the entries at 2^p and above read as
before is the model's reading (notes/assumptions/11.md, DEDUCED: D17 clears the lower ones only, U8 leaves these
contents unspecified), and an operand of 65536 and more, which no word has, is the model's choice (18.md, DESIGN
CHOICE). -/
def Obligations.InitConstructsCounter : Prop :=
  WordsOf 1#4 argOnly (fun cw => .init (cw.extractLsb' 32 16).toNat) ∧
  (∀ (p : Nat) (s : State), 4 ≤ p → p ≤ 16 →
    ∃ t, exec (.init p) s = .next t ∧ Answers t (some .init) .ok 0#32 ∧ t.cfgValid = true ∧
      t.prec.toNat = p ∧ regCount t = 2 ^ p ∧
      (∀ a, t.reg.read a = if a < 2 ^ p then 0#8 else s.reg.read a) ∧ SameHostSide s t) ∧
  (∀ (p : Nat) (s : State), p < 4 ∨ 16 < p →
    ∃ t, exec (.init p) s = .next t ∧ Answers t (some .init) .invalidPrecision 0#32 ∧ SameCounter s t ∧
      SameHostSide s t)

/-- R84, 10_state.md R25: RDCFG answers CFGW in every state and changes nothing; no other word with OPC 6 is
legal. -/
def Obligations.RdcfgReadsConfiguration : Prop :=
  WordsOf 6#4 (fun cw => cw = 0x6000000000000000#64) (fun _ => .rdcfg) ∧
  ∀ s : State, ∃ t d, exec .rdcfg s = .next t ∧ Answers t (some .rdcfg) .ok d ∧
    d.extractLsb' 0 5 = s.prec ∧ d.extractLsb' 5 3 = 0#3 ∧ d.getLsbD 8 = s.cfgValid ∧
    d.extractLsb' 9 23 = 0#23 ∧ SameCounter s t ∧ SameHostSide s t

/-! ## Adding a hash (41_add.md) -/

/-- R94: with a counter, ADD h max-updates the register its top PREC bits select with the rank of the rest, and
touches nothing else; without one it answers NOT_CONFIGURED and changes nothing. -/
def Obligations.AddMaxUpdatesIndexedRegister : Prop :=
  WordsOf 2#4 dataOnly (fun cw => .add (cw.extractLsb' 0 32)) ∧
  (∀ (h : Word32) (s : State), s.cfgValid = true → s.reg.wf →
    ∃ t, exec (.add h) s = .next t ∧ Answers t (some .add) .ok 0#32 ∧
      (∀ a, (t.reg.read a).toNat =
        if a = (h >>> (32 - s.prec.toNat)).toNat then
          max (s.reg.read a).toNat
            (clz32 (h &&& (0xFFFFFFFF#32 >>> s.prec.toNat)) - s.prec.toNat + 1)
        else (s.reg.read a).toNat) ∧
      t.cfgValid = s.cfgValid ∧ t.prec = s.prec ∧ SameHostSide s t) ∧
  (∀ (h : Word32) (s : State), s.cfgValid = false →
    ∃ t, exec (.add h) s = .next t ∧ Answers t (some .add) .notConfigured 0#32 ∧ SameCounter s t ∧
      SameHostSide s t)

/-- R91: the index is the number in the top PREC bits, below M, and ADD touches only that register. -/
def Obligations.AddIndexBelowM : Prop :=
  (∀ (p : Nat) (h : Word32), 4 ≤ p → p ≤ 16 →
    hashIndex p h = (h.extractLsb' (32 - p) p).toNat ∧ hashIndex p h < 2 ^ p) ∧
  (∀ (h : Word32) (s t : State), exec (.add h) s = .next t →
    ∀ a, a ≠ hashIndex s.prec.toNat h → t.reg.read a = s.reg.read a)

/-- R92: u is the hash below its index bits; the rank w = clz32(u) - PREC + 1 lies in [1, 33 - PREC] and fits 8
bits, is 33 - PREC exactly when u = 0, and is otherwise the position of u's most significant 1 counted from bit
31 - PREC. -/
def Obligations.RankIsLeadingOnePosition : Prop :=
  ∀ (p : Nat) (h : Word32), 4 ≤ p → p ≤ 16 →
    (rankPart p h).toNat = h.toNat % 2 ^ (32 - p) ∧
    (rank p h : Int) = (clz32 (rankPart p h) : Int) - p + 1 ∧
    p ≤ clz32 (rankPart p h) ∧ 1 ≤ rank p h ∧ rank p h ≤ 33 - p ∧ rank p h ≤ 29 ∧
    (rank p h = 33 - p ↔ rankPart p h = 0#32) ∧
    (∀ k, k < 32 → (rankPart p h).getLsbD k = true →
      (∀ b, k < b → b < 32 → (rankPart p h).getLsbD b = false) → k ≤ 31 - p ∧ rank p h = 31 - p - k + 1)

/-- R93: the max-update is an unsigned maximum on one register; when the value does not exceed it, nothing
changes. -/
def Obligations.MaxUpdateNeverLowers : Prop :=
  ∀ (m : Memory) (i : Nat) (v : Byte), m.wf → i < Config.regPhys →
    (∀ a, ((m.maxUpdate i v).read a).toNat =
      if a = i then max (m.read i).toNat v.toNat else (m.read a).toNat) ∧
    (v.toNat ≤ (m.read i).toNat → m.maxUpdate i v = m)

/-- R94's corner case: repeating an ADD changes nothing. -/
def Obligations.AddIsIdempotent : Prop :=
  ∀ (h : Word32) (s t u : State), s.Inv → s.cfgValid = true → exec (.add h) s = .next t →
    exec (.add h) t = .next u → counterOf u = counterOf t

/-- R95: the rank from one count on the shifted hash with a sentinel bit. -/
def Obligations.RankBySentinel : Prop :=
  ∀ (p : Nat) (h : Word32), 4 ≤ p → p ≤ 16 →
    clz32 (h &&& (0xFFFFFFFF#32 >>> p)) - p + 1 = clz32 ((h <<< p) ||| (1#32 <<< (p - 1))) + 1

/-- 10_state.md R24: MASK's bits. -/
def Obligations.MaskBits : Prop :=
  ∀ (p b : Nat), 4 ≤ p → p ≤ 16 → b < 32 → ((maskOf p).getLsbD b = true ↔ b ≤ 31 - p)

/-! ## Leading zeros (42_clz.md) -/

/-- R100: 32 for 0, otherwise 31 - k for the index k of the most significant 1 bit. -/
def Obligations.ClzCountsLeadingZeros : Prop :=
  ∀ x : Word32, clz32 x ≤ 32 ∧ (x = 0#32 → clz32 x = 32) ∧
    (∀ k, k < 32 → x.getLsbD k = true → (∀ b, k < b → b < 32 → x.getLsbD b = false) → clz32 x = 31 - k)

/-- R103: the six laws. -/
def Obligations.ClzLaws : Prop :=
  (∀ x : Word32, clz32 x = 32 ↔ x = 0#32) ∧
  (∀ x : Word32, x ≠ 0#32 → 2 ^ (31 - clz32 x) ≤ x.toNat ∧ x.toNat < 2 ^ (32 - clz32 x)) ∧
  (∀ (x : Word32) (n : Nat), x ≠ 0#32 → n ≤ clz32 x → clz32 (x <<< n) = clz32 x - n) ∧
  (∀ (x : Word32) (n : Nat), n ≤ 32 → x.toNat < 2 ^ (32 - n) → n ≤ clz32 x) ∧
  ((∀ x : Word32, x ≠ 0#32 → clz32 (x >>> 1) = clz32 x + 1) ∧ clz32 (0#32 >>> 1) = 32) ∧
  (∀ x y : Word32, x.toNat ≤ y.toNat → clz32 y ≤ clz32 x)

/-- R102: CLZ answers the count of its operand in every state and changes nothing. -/
def Obligations.ClzCommandAnswersCount : Prop :=
  WordsOf 5#4 dataOnly (fun cw => .clz (cw.extractLsb' 0 32)) ∧
  ∀ (x : Word32) (s : State), ∃ t d, exec (.clz x) s = .next t ∧ Answers t (some .clz) .ok d ∧
    d.toNat = clz32 x ∧ d.toNat ≤ 32 ∧ SameCounter s t ∧ SameHostSide s t

/-! ## Union (43_merge.md) -/

/-- R110: MERGE with the counter's own precision takes the register-wise maximum with the source below M; without
a counter, or with another precision, it answers the error, changes nothing and drives no source address. That the
entries at M and above read as before is 10_state.md R26's "MERGE never touches them"; U8 leaves their contents
unspecified (notes/assumptions/11.md, DEDUCED). An operand of 65536 and more, which no word has, is the model's choice (18.md,
DESIGN CHOICE). -/
def Obligations.MergeTakesRegisterwiseMax : Prop :=
  WordsOf 3#4 argOnly (fun cw => .merge (cw.extractLsb' 32 16).toNat) ∧
  (∀ (q : Nat) (s : State), s.cfgValid = true → q = s.prec.toNat → s.reg.wf → s.src.wf →
    ∃ t, exec (.merge q) s = .next t ∧ Answers t (some .merge) .ok 0#32 ∧
      (∀ a, (t.reg.read a).toNat =
        if a < 2 ^ s.prec.toNat then max (s.reg.read a).toNat (s.src.read a).toNat
        else (s.reg.read a).toNat) ∧
      t.cfgValid = s.cfgValid ∧ t.prec = s.prec ∧ SameHostSide s t) ∧
  (∀ (q : Nat) (s : State), s.cfgValid = false →
    ∃ t, exec (.merge q) s = .next t ∧ Answers t (some .merge) .notConfigured 0#32 ∧ SameCounter s t ∧
      SameHostSide s t ∧ ∀ e : Edge, msAddr t e = none) ∧
  (∀ (q : Nat) (s : State), s.cfgValid = true → q ≠ s.prec.toNat →
    ∃ t, exec (.merge q) s = .next t ∧ Answers t (some .merge) .precisionMismatch 0#32 ∧ SameCounter s t ∧
      SameHostSide s t ∧ ∀ e : Edge, msAddr t e = none)

/-- R111: MERGE's file is the one its M max-updates give, done in any order. -/
def Obligations.MergeOrderIsImmaterial : Prop :=
  ∀ (s : State) (order : List Nat), s.Inv → s.cfgValid = true → order.Perm (List.range (regCount s)) →
    ∃ t, exec (.merge s.prec.toNat) s = .next t ∧
      t.reg = order.foldl (fun r i => r.maxUpdate i (s.src.read i)) s.reg

/-- R113: the result, commutation, association (also with the maximum of two sources), idempotence, monotonicity
and commutation with ADD. -/
def Obligations.MergeLaws : Prop :=
  (∀ (s b : Memory) (u t : State), u.Inv → u.reg = s → b.wf → Merged u b t →
    ∀ a, a < regCount u → (t.reg.read a).toNat = max (s.read a).toNat (b.read a).toNat) ∧
  (∀ s u s₁ u₁ : State, s.Inv → u.Inv → u.prec = s.prec → Merged s u.reg s₁ → Merged u s.reg u₁ →
    ∀ a, a < regCount s → s₁.reg.read a = u₁.reg.read a) ∧
  (∀ (s sb sc sbc scb sd sbb : State) (b c d : Memory), s.Inv → b.wf → c.wf → d.wf →
    Merged s b sb → Merged sb c sbc → Merged s c sc → Merged sc b scb → Merged sb b sbb →
    (∀ a, a < regCount s → (d.read a).toNat = max (b.read a).toNat (c.read a).toNat) → Merged s d sd →
    sbc.reg = scb.reg ∧ sd.reg = sbc.reg ∧ sbb.reg = sb.reg ∧
      ∀ a, (s.reg.read a).toNat ≤ (sb.reg.read a).toNat) ∧
  (∀ (s m ma a am : State) (b : Memory) (h : Word32), s.Inv → b.wf →
    Merged s b m → exec (.add h) m = .next ma → exec (.add h) s = .next a → Merged a b am →
    ma.reg = am.reg)

/-- 20_memory.md R54: merging a counter with itself changes no register. -/
def Obligations.SelfMergeIsNoOp : Prop :=
  ∀ s t : State, s.Inv → Merged s s.reg t → counterOf t = counterOf s

/-- 20_memory.md R45: a command's outcome depends on the merge source only for MERGE, and there only on the
entries below M. -/
def Obligations.SourceMattersOnlyBelowM : Prop :=
  ∀ (i : Instr) (s t : State) (m : Memory), s.Inv → m.wf → exec i s = .next t →
    (i.op ≠ .merge ∨ ∀ a, a < regCount s → m.read a = s.src.read a) →
    exec i { s with src := m } = .next { t with src := m }

/-! ## Register readout (44_readout.md) -/

/-- R120: READ i answers register i for i below M and INDEX_RANGE from M on, NOT_CONFIGURED without a counter,
and changes nothing. An operand of 65536 and more, which no word has, is the model's choice (notes/assumptions/18.md,
DESIGN CHOICE). -/
def Obligations.ReadAnswersRegister : Prop :=
  WordsOf 4#4 argOnly (fun cw => .read (cw.extractLsb' 32 16).toNat) ∧
  (∀ (k : Nat) (s : State), s.cfgValid = true → k < 2 ^ s.prec.toNat →
    ∃ t d, exec (.read k) s = .next t ∧ Answers t (some .read) .ok d ∧ d.toNat = (s.reg.read k).toNat ∧
      SameCounter s t ∧ SameHostSide s t) ∧
  (∀ (k : Nat) (s : State), s.cfgValid = true → 2 ^ s.prec.toNat ≤ k →
    ∃ t, exec (.read k) s = .next t ∧ Answers t (some .read) .indexRange 0#32 ∧ SameCounter s t ∧
      SameHostSide s t) ∧
  (∀ (k : Nat) (s : State), s.cfgValid = false →
    ∃ t, exec (.read k) s = .next t ∧ Answers t (some .read) .notConfigured 0#32 ∧ SameCounter s t ∧
      SameHostSide s t)

/-- R121: reading 0 to M-1 one after another gives the whole register file the observation of a run shows. -/
def Obligations.ReadingAllRegistersObservesFile : Prop :=
  ∀ s : State, s.cfgValid = true → s.prec.toNat ≤ 16 →
    runCommands ((List.range (regCount s)).map (fun k => (encode (.read k), s.src))) (counterOf s) [] =
      some (counterOf s, (observe s).regs.map (fun v => { status := .ok, data := v.setWidth 32 }))

/-! ## Errors (60_exceptions.md) -/

/-- R133: whenever the status is not OK the data is 0, CFG_VALID, PREC and every register are as before, and the
merge source is not read. -/
def Obligations.FailingCommandChangesNothing : Prop :=
  ∀ (cw : Word64) (s t : State) (f : InFlight), runWord cw s = .next t → t.inFlight = some f →
    f.rsp.status ≠ .ok →
    f.rsp.data = 0#32 ∧ t = { s with inFlight := some f } ∧ (∀ e : Edge, msAddr t e = none) ∧
    ∀ m : Memory, runWord cw { s with src := m } = .next { t with src := m }

/-- R139, R134, R135: every accepted word answers exactly one status, the first cause in the order ILLEGAL,
NOT_CONFIGURED, the operand error, OK. -/
def Obligations.StatusFollowsPriority : Prop :=
  ∀ (cw : Word64) (s : State), ∃ t f, runWord cw s = .next t ∧ t.inFlight = some f ∧
    f.rsp.status = statusInPriority cw s

/-- 30_encoding.md R66, R67 and 70_reset_and_hazards.md R154: the status codes; while a response is presented, the
pins carry its code and its data, and a host that reads them gets that response. 93_implementation_defined.md U9: a
reserved code is a fault (notes/assumptions/13.md, DEDUCED). -/
def Obligations.StatusCodes : Prop :=
  statusCode .ok = 0#3 ∧ statusCode .invalidPrecision = 1#3 ∧ statusCode .precisionMismatch = 2#3 ∧
  statusCode .notConfigured = 3#3 ∧ statusCode .indexRange = 4#3 ∧ statusCode .illegal = 5#3 ∧
  (∀ st : Status, statusOfCode (statusCode st) = some st) ∧
  (∀ d : Word32, readResponse 6#3 d = .fault (.reservedStatus 6#3) ∧
    readResponse 7#3 d = .fault (.reservedStatus 7#3)) ∧
  (∀ r : Response, readResponse (statusCode r.status) r.data = .next r) ∧
  (∀ (s : State) (e : Edge) (r : Response), rspOut s e = some r →
    rspValid s e = true ∧ rspStatusPins s e = some (statusCode r.status) ∧ rspDataPins s e = some r.data)
end

