-- ==== Sys2Proof/Laws/PerInstr.lean ====
section
/-! SUPPORT. The per-instruction family RowSelected: the encoding of a well-formed command selects its own
row of the table of 30_encoding.md R71, and no other. -/

namespace Sys2Proof.Laws.RowSelected

/-- The rows the encoding of `i` selects are those of `i`'s own command. -/
def Statement (i : Instr) : Prop :=
  i.wellFormed = true → (encodingTable.filter (fun r => r.selects (encode i))).map Row.op = [i.op]

/-- The bits an ARG row fixes, in a word whose operand is ARG. -/
theorem arg_word (opc : BitVec 4) (a : BitVec 16) :
    assembleWord opc a 0#32 &&& 0xFFFF0000FFFFFFFF#64 = assembleWord opc 0#16 0#32 := by
  unfold assembleWord
  apply BitVec.eq_of_getLsbD_eq
  intro k hk
  simp only [BitVec.getLsbD_and, BitVec.getLsbD_append]
  interval_cases k <;> simp

/-- The bits a DATA row fixes, in a word whose operand is DATA. -/
theorem data_word (opc : BitVec 4) (d : Word32) :
    assembleWord opc 0#16 d &&& 0xFFFFFFFF00000000#64 = assembleWord opc 0#16 0#32 := by
  unfold assembleWord
  apply BitVec.eq_of_getLsbD_eq
  intro k hk
  simp only [BitVec.getLsbD_and, BitVec.getLsbD_append]
  interval_cases k <;> simp

theorem fieldOpc_assembleWord (opc : BitVec 4) (a : BitVec 16) (d : Word32) :
    fieldOpc (assembleWord opc a d) = opc := by
  unfold fieldOpc assembleWord
  apply BitVec.eq_of_getLsbD_eq
  intro k hk
  simp only [BitVec.getLsbD_extractLsb', BitVec.getLsbD_append]
  interval_cases k <;> simp

/-- Every row's mask fixes OPC, so a word selects only rows with its own OPC. -/
theorem selects_false_of_opc {r : Row} (hm : fieldOpc r.mask = 0xF#4) {opc : BitVec 4} {a : BitVec 16}
    {d : Word32} (h : opc ≠ fieldOpc r.pattern) : r.selects (assembleWord opc a d) = false := by
  rw [Row.selects, beq_eq_false_iff_ne]
  intro heq
  apply h
  have hand : fieldOpc (assembleWord opc a d &&& r.mask) = fieldOpc (assembleWord opc a d) &&& fieldOpc r.mask :=
    BitVec.extractLsb'_and
  rw [← heq, hand, hm, fieldOpc_assembleWord]
  exact (BitVec.and_allOnes (x := opc)).symm

/-- A word selects exactly the row of its command when it has that row's OPC and the fixed bits agree. -/
theorem filter_rows {opc : BitVec 4} {a : BitVec 16} {d : Word32} {l : List Row}
    (hm : ∀ r ∈ l, fieldOpc r.mask = 0xF#4) (hne : ∀ r ∈ l, opc ≠ fieldOpc r.pattern) :
    l.filter (fun r => r.selects (assembleWord opc a d)) = [] :=
  List.filter_eq_nil_iff.mpr
    (fun r hr => by simp [selects_false_of_opc (hm r hr) (hne r hr)])

/-- The one row with the word's OPC stands between rows of other OPCs. -/
theorem filter_single {opc : BitVec 4} {a : BitVec 16} {d : Word32} (l₁ l₂ : List Row) (r : Row)
    (hm : ∀ x ∈ l₁ ++ l₂, fieldOpc x.mask = 0xF#4) (hne : ∀ x ∈ l₁ ++ l₂, opc ≠ fieldOpc x.pattern)
    (hr : r.selects (assembleWord opc a d) = true) :
    ((l₁ ++ r :: l₂).filter (fun x => x.selects (assembleWord opc a d))).map Row.op = [r.op] := by
  have hcons : (r :: l₂).filter (fun x => x.selects (assembleWord opc a d)) =
      r :: l₂.filter (fun x => x.selects (assembleWord opc a d)) := List.filter_cons_of_pos (by simpa using hr)
  rw [List.filter_append, hcons,
    filter_rows (fun x hx => hm x (by simp [hx])) (fun x hx => hne x (by simp [hx])),
    filter_rows (fun x hx => hm x (by simp [hx])) (fun x hx => hne x (by simp [hx]))]
  rfl

theorem selects_arg {r : Row} (opc : BitVec 4) (a : BitVec 16) (hm : r.mask = 0xFFFF0000FFFFFFFF#64)
    (hp : r.pattern = assembleWord opc 0#16 0#32) : r.selects (assembleWord opc a 0#32) = true := by
  simp [Row.selects, hm, hp, arg_word]

theorem selects_data {r : Row} (opc : BitVec 4) (d : Word32) (hm : r.mask = 0xFFFFFFFF00000000#64)
    (hp : r.pattern = assembleWord opc 0#16 0#32) : r.selects (assembleWord opc 0#16 d) = true := by
  simp [Row.selects, hm, hp, data_word]

theorem init (p : Nat) : Statement (.init p) := fun _ =>
  filter_single [] (encodingTable.drop 1) _ (by decide) (by decide) (selects_arg 1#4 _ rfl (by decide))

theorem add (h : Word32) : Statement (.add h) := fun _ =>
  filter_single (encodingTable.take 1) (encodingTable.drop 2) _ (by decide) (by decide)
    (selects_data 2#4 _ rfl (by decide))

theorem merge (q : Nat) : Statement (.merge q) := fun _ =>
  filter_single (encodingTable.take 2) (encodingTable.drop 3) _ (by decide) (by decide)
    (selects_arg 3#4 _ rfl (by decide))

theorem read (k : Nat) : Statement (.read k) := fun _ =>
  filter_single (encodingTable.take 3) (encodingTable.drop 4) _ (by decide) (by decide)
    (selects_arg 4#4 _ rfl (by decide))

theorem clz (x : Word32) : Statement (.clz x) := fun _ =>
  filter_single (encodingTable.take 4) (encodingTable.drop 5) _ (by decide) (by decide)
    (selects_data 5#4 _ rfl (by decide))

theorem rdcfg : Statement .rdcfg := by unfold Statement; decide

end Sys2Proof.Laws.RowSelected
end

