-- ==== Sys2Proof/Laws/Decode.lean ====
section
/-! SUPPORT. The fields of an assembled word, and a word rebuilt from its fields. -/

namespace Sys2Proof

@[simp] theorem fieldOpc_assembleWord (opc : BitVec 4) (a : BitVec 16) (d : Word32) :
    fieldOpc (assembleWord opc a d) = opc := Laws.RowSelected.fieldOpc_assembleWord opc a d

@[simp] theorem fieldRsv_assembleWord (opc : BitVec 4) (a : BitVec 16) (d : Word32) :
    fieldRsv (assembleWord opc a d) = 0#12 := by
  apply BitVec.eq_of_getLsbD_eq
  intro k hk
  simp only [fieldRsv, assembleWord, BitVec.getLsbD_extractLsb', BitVec.getLsbD_append]
  interval_cases k <;> simp

@[simp] theorem fieldArg_assembleWord (opc : BitVec 4) (a : BitVec 16) (d : Word32) :
    fieldArg (assembleWord opc a d) = a := by
  apply BitVec.eq_of_getLsbD_eq
  intro k hk
  simp only [fieldArg, assembleWord, BitVec.getLsbD_extractLsb', BitVec.getLsbD_append]
  interval_cases k <;> simp

@[simp] theorem fieldData_assembleWord (opc : BitVec 4) (a : BitVec 16) (d : Word32) :
    fieldData (assembleWord opc a d) = d := by
  apply BitVec.eq_of_getLsbD_eq
  intro k hk
  simp only [fieldData, assembleWord, BitVec.getLsbD_extractLsb', BitVec.getLsbD_append]
  interval_cases k <;> simp

/-- A word with RSV = 0 is the assembly of its fields (30_encoding.md R61). -/
theorem assembleWord_fields (cw : Word64) (h : fieldRsv cw = 0#12) :
    assembleWord (fieldOpc cw) (fieldArg cw) (fieldData cw) = cw := by
  apply BitVec.eq_of_getLsbD_eq
  intro k hk
  have hrsv : ∀ j < 12, cw.getLsbD (48 + j) = false := by
    intro j hj
    have := congrArg (fun x => x.getLsbD j) h
    simpa [fieldRsv, hj] using this
  simp only [fieldOpc, fieldArg, fieldData, assembleWord, BitVec.getLsbD_extractLsb', BitVec.getLsbD_append]
  by_cases hk1 : k < 32
  · simp [hk1]
  · by_cases hk2 : k < 48
    · simp [hk1, show k - 32 < 16 by omega, show 32 + (k - 32) = k by omega]
    · by_cases hk3 : k < 60
      · have := hrsv (k - 48) (by omega)
        rw [show 48 + (k - 48) = k by omega] at this
        simp [hk1, show ¬ (k - 32 < 16) by omega, show k - 32 - 16 < 12 by omega, this]
      · simp [hk1, show ¬ (k - 32 < 16) by omega, show ¬ (k - 32 - 16 < 12) by omega,
          show k - 32 - 16 - 12 < 4 by omega, show 60 + (k - 32 - 16 - 12) = k by omega]

/-- The word as a number: the fields do not overlap. -/
theorem assembleWord_toNat (opc : BitVec 4) (a : BitVec 16) (d : Word32) :
    (assembleWord opc a d).toNat = opc.toNat * 2 ^ 60 + a.toNat * 2 ^ 32 + d.toNat := by
  unfold assembleWord
  rw [BitVec.toNat_append, BitVec.toNat_append, BitVec.toNat_append, ← Nat.shiftLeft_add_eq_or_of_lt d.isLt,
    ← Nat.shiftLeft_add_eq_or_of_lt a.isLt,
    ← Nat.shiftLeft_add_eq_or_of_lt (by decide : (0#12).toNat < 2 ^ 12)]
  simp only [Nat.shiftLeft_eq]
  simp
  ring

/-- Decoding a word whose RSV is 0 is the match on OPC. -/
theorem decode_of_rsv_zero {cw : Word64} (h : fieldRsv cw = 0#12) :
    decode cw = match (fieldOpc cw).toNat with
      | 1 => withArg .init cw
      | 2 => withData .add cw
      | 3 => withArg .merge cw
      | 4 => withArg .read cw
      | 5 => withData .clz cw
      | 6 => withNothing .rdcfg cw
      | _ => .error .illegalOpcode := by
  unfold decode
  exact if_neg (by simp [h])

end Sys2Proof
end

