-- ==== Sys2Proof/Laws/State.lean ====
section
/-! SUPPORT. One lemma per field per named update of State, each true by rfl, so that no proof unfolds a
record update. -/

namespace Sys2Proof.Machine

@[simp] theorem pastEdge_cfgValid (s : State) (e : Edge) :
    (pastEdge s e).cfgValid = s.cfgValid := rfl

@[simp] theorem pastEdge_prec (s : State) (e : Edge) :
    (pastEdge s e).prec = s.prec := rfl

@[simp] theorem pastEdge_reg (s : State) (e : Edge) :
    (pastEdge s e).reg = s.reg := rfl

@[simp] theorem pastEdge_inFlight (s : State) (e : Edge) :
    (pastEdge s e).inFlight = s.inFlight := rfl

@[simp] theorem pastEdge_src (s : State) (e : Edge) :
    (pastEdge s e).src = sourceAt s e := rfl

@[simp] theorem pastEdge_pins (s : State) (e : Edge) :
    (pastEdge s e).pins = s.pins.tail := rfl

@[simp] theorem pastEdge_taken (s : State) (e : Edge) :
    (pastEdge s e).taken = s.taken := rfl

@[simp] theorem pastEdge_lat (s : State) (e : Edge) :
    (pastEdge s e).lat = s.lat := rfl

@[simp] theorem resetEdge_cfgValid (s : State) (e : Edge) :
    (resetEdge s e).cfgValid = false := rfl

@[simp] theorem resetEdge_prec (s : State) (e : Edge) :
    (resetEdge s e).prec = 0#5 := rfl

@[simp] theorem resetEdge_reg (s : State) (e : Edge) :
    (resetEdge s e).reg = [] := rfl

@[simp] theorem resetEdge_inFlight (s : State) (e : Edge) :
    (resetEdge s e).inFlight = none := rfl

@[simp] theorem resetEdge_src (s : State) (e : Edge) :
    (resetEdge s e).src = sourceAt s e := rfl

@[simp] theorem resetEdge_pins (s : State) (e : Edge) :
    (resetEdge s e).pins = s.pins.tail := rfl

@[simp] theorem resetEdge_taken (s : State) (e : Edge) :
    (resetEdge s e).taken = [] := rfl

@[simp] theorem resetEdge_lat (s : State) (e : Edge) :
    (resetEdge s e).lat = s.lat := rfl

@[simp] theorem takeResponse_cfgValid (r : Response) (s : State) :
    (takeResponse r s).cfgValid = s.cfgValid := rfl

@[simp] theorem takeResponse_prec (r : Response) (s : State) :
    (takeResponse r s).prec = s.prec := rfl

@[simp] theorem takeResponse_reg (r : Response) (s : State) :
    (takeResponse r s).reg = s.reg := rfl

@[simp] theorem takeResponse_inFlight (r : Response) (s : State) :
    (takeResponse r s).inFlight = none := rfl

@[simp] theorem takeResponse_src (r : Response) (s : State) :
    (takeResponse r s).src = s.src := rfl

@[simp] theorem takeResponse_pins (r : Response) (s : State) :
    (takeResponse r s).pins = s.pins := rfl

@[simp] theorem takeResponse_taken (r : Response) (s : State) :
    (takeResponse r s).taken = s.taken ++ [r] := rfl

@[simp] theorem takeResponse_lat (r : Response) (s : State) :
    (takeResponse r s).lat = s.lat := rfl

@[simp] theorem wait_cfgValid (f : InFlight) (s : State) :
    (wait f s).cfgValid = s.cfgValid := rfl

@[simp] theorem wait_prec (f : InFlight) (s : State) :
    (wait f s).prec = s.prec := rfl

@[simp] theorem wait_reg (f : InFlight) (s : State) :
    (wait f s).reg = s.reg := rfl

@[simp] theorem wait_inFlight (f : InFlight) (s : State) :
    (wait f s).inFlight = some { f with age := f.age + 1 } := rfl

@[simp] theorem wait_src (f : InFlight) (s : State) :
    (wait f s).src = s.src := rfl

@[simp] theorem wait_pins (f : InFlight) (s : State) :
    (wait f s).pins = s.pins := rfl

@[simp] theorem wait_taken (f : InFlight) (s : State) :
    (wait f s).taken = s.taken := rfl

@[simp] theorem wait_lat (f : InFlight) (s : State) :
    (wait f s).lat = s.lat := rfl

@[simp] theorem presentWord_cfgValid (s : State) (cw : Word64) :
    (presentWord s cw).cfgValid = s.cfgValid := rfl

@[simp] theorem presentWord_prec (s : State) (cw : Word64) :
    (presentWord s cw).prec = s.prec := rfl

@[simp] theorem presentWord_reg (s : State) (cw : Word64) :
    (presentWord s cw).reg = s.reg := rfl

@[simp] theorem presentWord_inFlight (s : State) (cw : Word64) :
    (presentWord s cw).inFlight = none := rfl

@[simp] theorem presentWord_src (s : State) (cw : Word64) :
    (presentWord s cw).src = s.src := rfl

@[simp] theorem presentWord_pins (s : State) (cw : Word64) :
    (presentWord s cw).pins = commandEdge cw :: s.pins := rfl

@[simp] theorem presentWord_taken (s : State) (cw : Word64) :
    (presentWord s cw).taken = s.taken ++ (s.inFlight.map (fun f => f.rsp)).toList := rfl

@[simp] theorem presentWord_lat (s : State) (cw : Word64) :
    (presentWord s cw).lat = s.lat := rfl

@[simp] theorem stateOf_cfgValid (c : Counter) (m : Memory) :
    (stateOf c m).cfgValid = c.cfgValid := rfl

@[simp] theorem stateOf_prec (c : Counter) (m : Memory) :
    (stateOf c m).prec = c.prec := rfl

@[simp] theorem stateOf_reg (c : Counter) (m : Memory) :
    (stateOf c m).reg = c.reg := rfl

@[simp] theorem stateOf_inFlight (c : Counter) (m : Memory) :
    (stateOf c m).inFlight = none := rfl

@[simp] theorem stateOf_src (c : Counter) (m : Memory) :
    (stateOf c m).src = m := rfl

@[simp] theorem stateOf_pins (c : Counter) (m : Memory) :
    (stateOf c m).pins = [] := rfl

@[simp] theorem stateOf_taken (c : Counter) (m : Memory) :
    (stateOf c m).taken = [] := rfl

@[simp] theorem stateOf_lat (c : Counter) (m : Memory) :
    (stateOf c m).lat = Latencies.least := rfl

@[simp] theorem reset_cfgValid : State.reset.cfgValid = false := rfl

@[simp] theorem reset_prec : State.reset.prec = 0#5 := rfl

@[simp] theorem reset_reg : State.reset.reg = [] := rfl

@[simp] theorem reset_inFlight : State.reset.inFlight = none := rfl

@[simp] theorem reset_src : State.reset.src = [] := rfl

@[simp] theorem reset_pins : State.reset.pins = [] := rfl

@[simp] theorem reset_taken : State.reset.taken = [] := rfl

@[simp] theorem reset_lat : State.reset.lat = Latencies.least := rfl

@[simp] theorem counterOf_stateOf (c : Counter) (m : Memory) : counterOf (stateOf c m) = c := rfl

@[simp] theorem respond_eq (op : Option Op) (st : Status) (d : Word32) (s : State) :
    respond op st d s =
      .next { s with inFlight := some { op := op, age := 0, rsp := { status := st, data := d } } } := rfl

@[simp] theorem raise_eq (op : Option Op) (st : Status) (s : State) :
    raise op st s =
      .next { s with inFlight := some { op := op, age := 0, rsp := { status := st, data := 0#32 } } } := rfl

end Sys2Proof.Machine
end

