-- ==== Sys2Proof/Laws/Memory.lean ====
section
/-! SUPPORT. The laws of an indexed space: what a read gives after each operation, and that every operation
keeps the canonical form. -/

namespace Sys2Proof.Machine

/-- No cell of the space has an index below `a` or at `a`. -/
theorem Memory.read_eq_unlisted {m : Memory} {a : Nat} (h : ∀ c ∈ m, c.1 ≠ a) :
    m.read a = Memory.unlisted := by
  induction m with
  | nil => rfl
  | cons c m ih =>
    simp only [Memory.read]
    rw [if_neg (h c (by simp))]
    exact ih (fun d hd => h d (by simp [hd]))

theorem Memory.read_cons_same (a : Nat) (v : Byte) {m : Memory} (h : ∀ c ∈ m, c.1 ≠ a) :
    (Memory.cons a v m).read a = v := by
  unfold Memory.cons
  split
  · rename_i hv; rw [Memory.read_eq_unlisted h, hv]
  · simp [Memory.read]

theorem Memory.read_cons_other {a b : Nat} (v : Byte) (m : Memory) (h : a ≠ b) :
    (Memory.cons a v m).read b = m.read b := by
  unfold Memory.cons
  split
  · rfl
  · simp [Memory.read, h]

/-- A write leaves every other entry alone (no premise on the space). -/
theorem Memory.read_write_other (m : Memory) {a b : Nat} (v : Byte) (h : a ≠ b) :
    (m.write a v).read b = m.read b := by
  induction m with
  | nil => exact Memory.read_cons_other v [] h
  | cons c m ih =>
    simp only [Memory.write]
    split
    · exact Memory.read_cons_other v _ h
    · split
      · rename_i _ hac
        rw [Memory.read_cons_other v m h]
        simp [Memory.read, ← hac, h]
      · simp only [Memory.read, ih]

/-- A read after a write to the same entry gives the value written. -/
theorem Memory.read_write_same {m : Memory} (hm : m.wf) (a : Nat) (v : Byte) :
    (m.write a v).read a = v := by
  induction m with
  | nil => exact Memory.read_cons_same a v (by simp)
  | cons c m ih =>
    obtain ⟨hp, hu, hb⟩ := hm
    have hrel := (List.pairwise_cons.mp hp).1
    simp only [Memory.write]
    split
    · rename_i hac
      refine Memory.read_cons_same a v ?_
      intro d hd
      rcases List.mem_cons.mp hd with rfl | hd
      · omega
      · have := hrel d hd; omega
    · split
      · rename_i _ hac
        refine Memory.read_cons_same a v ?_
        intro d hd
        have := hrel d hd
        omega
      · rename_i h1 h2
        have hne : c.1 ≠ a := fun h => h2 h.symm
        simp only [Memory.read, if_neg hne]
        exact ih ⟨(List.pairwise_cons.mp hp).2, fun d hd => hu d (by simp [hd]),
          fun d hd => hb d (by simp [hd])⟩

theorem Memory.read_write {m : Memory} (hm : m.wf) (a b : Nat) (v : Byte) :
    (m.write a v).read b = if a = b then v else m.read b := by
  split
  · rename_i h; rw [← h]; exact Memory.read_write_same hm a v
  · rename_i h; exact Memory.read_write_other m v h

theorem Memory.mem_cons_cell {a : Nat} {v : Byte} {m : Memory} {d : Host.Cell}
    (h : d ∈ Memory.cons a v m) : (d = (a, v) ∧ v ≠ Memory.unlisted) ∨ d ∈ m := by
  unfold Memory.cons at h
  split at h
  · exact .inr h
  · rename_i hv
    rcases List.mem_cons.mp h with h | h
    · exact .inl ⟨h, hv⟩
    · exact .inr h

theorem Memory.mem_write {m : Memory} {a : Nat} {v : Byte} {d : Host.Cell} (h : d ∈ m.write a v) :
    (d = (a, v) ∧ v ≠ Memory.unlisted) ∨ d ∈ m := by
  induction m with
  | nil => exact Memory.mem_cons_cell h
  | cons c m ih =>
    simp only [Memory.write] at h
    split at h
    · exact Memory.mem_cons_cell h
    · split at h
      · rcases Memory.mem_cons_cell h with h | h
        · exact .inl h
        · exact .inr (by simp [h])
      · rcases List.mem_cons.mp h with h | h
        · exact .inr (by simp [h])
        · rcases ih h with h | h
          · exact .inl h
          · exact .inr (by simp [h])

theorem Memory.pairwise_cons_cell {a : Nat} {v : Byte} {m : Memory}
    (hp : m.Pairwise (fun x y => x.1 < y.1)) (h : ∀ d ∈ m, a < d.1) :
    (Memory.cons a v m).Pairwise (fun x y => x.1 < y.1) := by
  unfold Memory.cons
  split
  · exact hp
  · exact List.pairwise_cons.mpr ⟨h, hp⟩

theorem Memory.pairwise_write {m : Memory} (hp : m.Pairwise (fun x y => x.1 < y.1)) (a : Nat) (v : Byte) :
    (m.write a v).Pairwise (fun x y => x.1 < y.1) := by
  induction m with
  | nil => exact Memory.pairwise_cons_cell hp (by simp)
  | cons c m ih =>
    have ⟨hrel, hp'⟩ := List.pairwise_cons.mp hp
    simp only [Memory.write]
    split
    · rename_i hac
      refine Memory.pairwise_cons_cell hp ?_
      intro d hd
      rcases List.mem_cons.mp hd with rfl | hd
      · exact hac
      · have := hrel d hd; omega
    · split
      · rename_i _ hac
        exact Memory.pairwise_cons_cell hp' (fun d hd => by have := hrel d hd; omega)
      · rename_i h1 h2
        refine List.pairwise_cons.mpr ⟨?_, ih hp'⟩
        intro d hd
        rcases Memory.mem_write hd with ⟨rfl, _⟩ | hd
        · show c.1 < a; omega
        · exact hrel d hd

/-- A write inside the physical storage keeps the canonical form. -/
theorem Memory.wf_write {m : Memory} (hm : m.wf) {a : Nat} (ha : a < Config.regPhys) (v : Byte) :
    (m.write a v).wf := by
  obtain ⟨hp, hu, hb⟩ := hm
  refine ⟨Memory.pairwise_write hp a v, ?_, ?_⟩
  · intro c hc
    rcases Memory.mem_write hc with ⟨rfl, hv⟩ | hc
    · exact hv
    · exact hu c hc
  · intro c hc
    rcases Memory.mem_write hc with ⟨rfl, _⟩ | hc
    · exact ha
    · exact hb c hc

theorem Memory.wf_nil : Memory.wf [] := by simp [Memory.wf]

/-- A max-update inside the physical storage keeps the canonical form. -/
theorem Memory.wf_maxUpdate {m : Memory} (hm : m.wf) {a : Nat} (ha : a < Config.regPhys) (v : Byte) :
    (m.maxUpdate a v).wf := Memory.wf_write hm ha _

theorem umax_toNat (a b : Byte) : (umax a b).toNat = max a.toNat b.toNat := by
  unfold umax
  split <;> rename_i h <;> rw [BitVec.le_def] at h <;> omega

theorem umax_unlisted (a : Byte) : umax a Memory.unlisted = a := by
  apply BitVec.eq_of_toNat_eq
  rw [umax_toNat]
  simp [Memory.unlisted]

/-- The max-update's whole effect on reads (41_add.md R93). -/
theorem Memory.read_maxUpdate {m : Memory} (hm : m.wf) (a b : Nat) (v : Byte) :
    (m.maxUpdate a v).read b = if a = b then umax (m.read a) v else m.read b :=
  Memory.read_write hm a b _

theorem Memory.wf_filter {m : Memory} (hm : m.wf) (q : Host.Cell → Bool) : Memory.wf (m.filter q) :=
  ⟨hm.1.filter q, fun c hc => hm.2.1 c (List.mem_filter.mp hc).1,
    fun c hc => hm.2.2 c (List.mem_filter.mp hc).1⟩

/-- Clearing the entries below n keeps the canonical form. -/
theorem Memory.wf_clearBelow {m : Memory} (hm : m.wf) (n : Nat) : (m.clearBelow n).wf :=
  Memory.wf_filter hm _

/-- INIT's loop on reads: 0 below n, unchanged from n on. -/
theorem Memory.read_clearBelow (m : Memory) (n a : Nat) :
    (m.clearBelow n).read a = if a < n then Memory.unlisted else m.read a := by
  induction m with
  | nil => simp [Memory.clearBelow, Memory.read]
  | cons c m ih =>
    unfold Memory.clearBelow at ih ⊢
    by_cases hc : n ≤ c.1
    · rw [List.filter_cons_of_pos (by simpa using hc)]
      simp only [Memory.read, ih]
      by_cases hca : c.1 = a
      · have : ¬ a < n := by omega
        simp [hca, this]
      · simp [hca]
    · rw [List.filter_cons_of_neg (by simpa using hc), ih]
      by_cases ha : a < n
      · simp [ha]
      · have : c.1 ≠ a := by omega
        simp [ha, Memory.read, this]

/-- One turn of MERGE's loop. -/
def mergeTurn (n : Nat) (r : Memory) (c : Host.Cell) : Memory :=
  if c.1 < n then r.maxUpdate c.1 c.2 else r

theorem Memory.maxUpdateFrom_eq_fold (m src : Memory) (n : Nat) :
    m.maxUpdateFrom src n = src.foldl (mergeTurn n) m := rfl

theorem Memory.wf_mergeTurn {m : Memory} (hm : m.wf) {c : Host.Cell} (hc : c.1 < Config.regPhys) (n : Nat) :
    (mergeTurn n m c).wf := by
  unfold mergeTurn
  split
  · exact Memory.wf_maxUpdate hm hc _
  · exact hm

/-- MERGE's loop keeps the canonical form. -/
theorem Memory.wf_maxUpdateFrom {m src : Memory} (hm : m.wf) (hs : ∀ c ∈ src, c.1 < Config.regPhys) (n : Nat) :
    (m.maxUpdateFrom src n).wf := by
  rw [Memory.maxUpdateFrom_eq_fold]
  induction src generalizing m with
  | nil => exact hm
  | cons c src ih =>
    exact ih (Memory.wf_mergeTurn hm (hs c (by simp)) n) (fun d hd => hs d (by simp [hd]))

/-- MERGE's loop on reads: the maximum below n, unchanged from n on. -/
theorem Memory.read_maxUpdateFrom {m src : Memory} (hm : m.wf) (hs : src.wf) (n a : Nat) :
    (m.maxUpdateFrom src n).read a = if a < n then umax (m.read a) (src.read a) else m.read a := by
  rw [Memory.maxUpdateFrom_eq_fold]
  induction src generalizing m with
  | nil => simp [Memory.read, umax_unlisted]
  | cons c src ih =>
    obtain ⟨hp, hu, hb⟩ := hs
    have ⟨hrel, hp'⟩ := List.pairwise_cons.mp hp
    have hs' : Memory.wf src := ⟨hp', fun d hd => hu d (by simp [hd]), fun d hd => hb d (by simp [hd])⟩
    rw [List.foldl_cons, ih (Memory.wf_mergeTurn hm (hb c (by simp)) n) hs']
    simp only [Memory.read]
    by_cases hca : c.1 = a
    · have hun : Memory.read src a = Memory.unlisted :=
        Memory.read_eq_unlisted (fun d hd => by have := hrel d hd; omega)
      by_cases ha : a < n
      · simp [mergeTurn, hca, ha, hun, umax_unlisted, Memory.read_maxUpdate hm]
      · simp [mergeTurn, hca, ha]
    · have : (mergeTurn n m c).read a = m.read a := by
        unfold mergeTurn
        split
        · rw [Memory.read_maxUpdate hm, if_neg hca]
        · rfl
      simp [this, hca]

/-- What the host describes is canonical, whatever list it writes. -/
theorem Memory.wf_ofCells (cells : List Host.Cell) : (Memory.ofCells cells).wf := by
  unfold Memory.ofCells
  have key : ∀ (l : List Host.Cell) (m : Memory), m.wf → (∀ c ∈ l, c.1 < Config.regPhys) →
      (l.foldl (fun m c => m.write c.1 c.2) m).wf := by
    intro l
    induction l with
    | nil => intro m hm _; exact hm
    | cons c l ih =>
      intro m hm hl
      exact ih _ (Memory.wf_write hm (hl c (by simp)) _) (fun d hd => hl d (by simp [hd]))
  exact key _ _ Memory.wf_nil (fun c hc => by simpa using (List.mem_filter.mp hc).2)

/-- Two canonical spaces that read the same everywhere are the same data. -/
theorem Memory.ext_read {m m' : Memory} (hm : m.wf) (hm' : m'.wf) (h : ∀ a, m.read a = m'.read a) :
    m = m' := by
  induction m generalizing m' with
  | nil =>
    cases m' with
    | nil => rfl
    | cons c m' =>
      have := h c.1
      simp only [Memory.read, if_true] at this
      exact absurd this.symm (hm'.2.1 c (by simp))
  | cons c m ih =>
    have ⟨hrel, hp⟩ := List.pairwise_cons.mp hm.1
    have tail_wf : Memory.wf m := ⟨hp, fun d hd => hm.2.1 d (by simp [hd]), fun d hd => hm.2.2 d (by simp [hd])⟩
    cases m' with
    | nil =>
      have := h c.1
      simp only [Memory.read, if_true] at this
      exact absurd this (hm.2.1 c (by simp))
    | cons c' m' =>
      have ⟨hrel', hp'⟩ := List.pairwise_cons.mp hm'.1
      have tail_wf' : Memory.wf m' :=
        ⟨hp', fun d hd => hm'.2.1 d (by simp [hd]), fun d hd => hm'.2.2 d (by simp [hd])⟩
      have key : c.1 = c'.1 := by
        rcases Nat.lt_trichotomy c.1 c'.1 with hlt | heq | hgt
        · have h1 := h c.1
          have h2 : Memory.read (c' :: m') c.1 = Memory.unlisted :=
            Memory.read_eq_unlisted (fun d hd => by
              rcases List.mem_cons.mp hd with rfl | hd
              · omega
              · have := hrel' d hd; omega)
          rw [h2] at h1
          simp only [Memory.read, if_true] at h1
          exact absurd h1 (hm.2.1 c (by simp))
        · exact heq
        · have h1 := h c'.1
          have h2 : Memory.read (c :: m) c'.1 = Memory.unlisted :=
            Memory.read_eq_unlisted (fun d hd => by
              rcases List.mem_cons.mp hd with rfl | hd
              · omega
              · have := hrel d hd; omega)
          rw [h2] at h1
          simp only [Memory.read, if_true] at h1
          exact absurd h1.symm (hm'.2.1 c' (by simp))
      have hv : c.2 = c'.2 := by
        have := h c.1
        simpa [Memory.read, key] using this
      have hc : c = c' := Prod.ext key hv
      subst hc
      refine congrArg (c :: ·) (ih tail_wf tail_wf' (fun a => ?_))
      by_cases ha : c.1 = a
      · subst ha
        rw [Memory.read_eq_unlisted (fun d hd => by have := hrel d hd; omega),
          Memory.read_eq_unlisted (fun d hd => by have := hrel' d hd; omega)]
      · have := h a
        simpa [Memory.read, ha] using this

/-- State.reset's register file and merge source are canonical. -/
theorem reset_spaces_wf : State.reset.reg.wf ∧ State.reset.src.wf := ⟨Memory.wf_nil, Memory.wf_nil⟩

end Sys2Proof.Machine
end

