-- ==== Sys2Proof/Laws/Operands.lean ====
section
/-! SUPPORT. What the operand functions compute: the scan of clz32, MASK's bits. -/

namespace Sys2Proof.Machine

theorem clzScan_le (x : Word32) (k : Nat) : clzScan x k ≤ k := by
  induction k with
  | zero => simp [clzScan]
  | succ k ih => unfold clzScan; split <;> omega

/-- The scan from bit k-1 counts at least n zeros exactly when the top n of those bits are 0. -/
theorem le_clzScan_iff (x : Word32) (k n : Nat) (hn : n ≤ k) :
    n ≤ clzScan x k ↔ ∀ b, k - n ≤ b → b < k → x.getLsbD b = false := by
  induction k generalizing n with
  | zero => simp [clzScan]; omega
  | succ k ih =>
    unfold clzScan
    rcases Nat.eq_zero_or_pos n with rfl | hpos
    · simp; intro b h1 h2; omega
    · by_cases hx : x.getLsbD k
      · simp only [hx, if_true]
        constructor
        · omega
        · intro h; have := h k (by omega) (by omega); simp [hx] at this
      · simp only [hx, if_false, Bool.false_eq_true]
        rw [show n ≤ clzScan x k + 1 ↔ n - 1 ≤ clzScan x k by omega, ih (n - 1) (by omega)]
        constructor
        · intro h b h1 h2
          by_cases hb : b = k
          · subst hb; simpa using hx
          · exact h b (by omega) (by omega)
        · intro h b h1 h2
          exact h b (by omega) (by omega)

/-- The same for bounds on the value: n leading zeros exactly when x is below 2^(32-n). -/
theorem le_clz32_iff (x : Word32) (n : Nat) (hn : n ≤ 32) : n ≤ clz32 x ↔ x.toNat < 2 ^ (32 - n) := by
  unfold clz32
  rw [le_clzScan_iff x 32 n hn]
  constructor
  · intro h
    apply Nat.lt_pow_two_of_testBit
    intro i hi
    by_cases h32 : i < 32
    · exact h i hi h32
    · exact Nat.testBit_lt_two_pow (Nat.lt_of_lt_of_le x.isLt (Nat.pow_le_pow_right (by omega) (by omega)))
  · intro h b hb _
    exact Nat.testBit_lt_two_pow (Nat.lt_of_lt_of_le h (Nat.pow_le_pow_right (by omega) hb))

/-- MASK as a number: the low 32 - PREC bits. -/
theorem maskOf_toNat (p : Nat) (hp : p ≤ 32) : (maskOf p).toNat = 2 ^ (32 - p) - 1 := by
  interval_cases p <;> rfl

/-- The rank part as a number: the hash below its top PREC bits. -/
theorem rankPart_toNat (p : Nat) (hp : p ≤ 32) (h : Word32) :
    (rankPart p h).toNat = h.toNat % 2 ^ (32 - p) := by
  unfold rankPart
  rw [BitVec.toNat_and, maskOf_toNat p hp, Nat.and_two_pow_sub_one_eq_mod]

/-- The index as a number: the top PREC bits. -/
theorem hashIndex_eq (p : Nat) (h : Word32) : hashIndex p h = h.toNat / 2 ^ (32 - p) := by
  unfold hashIndex
  rw [BitVec.toNat_ushiftRight, Nat.shiftRight_eq_div_pow]

/-- The subtraction in the rank is exact: the rank part has at least PREC leading zeros (41_add.md R92). -/
theorem prec_le_clz32_rankPart (p : Nat) (hp : p ≤ 32) (h : Word32) : p ≤ clz32 (rankPart p h) := by
  rw [le_clz32_iff _ _ hp, rankPart_toNat p hp]
  exact Nat.mod_lt _ (by positivity)

end Sys2Proof.Machine
end

