-- ==== Sys2Proof/Laws/Exec.lean ====
section
/-! SUPPORT. Said once: what each shared operation and each command can do. Every command answers a next
state; the cases below are all there are. -/

namespace Sys2Proof.Machine

/-- `respond` answers exactly this. -/
theorem respond_next {op : Option Op} {st : Status} {d : Word32} {s t : State}
    (h : respond op st d s = .next t) :
    t = { s with inFlight := some { op := op, age := 0, rsp := { status := st, data := d } } } := by
  simpa using h.symm

/-- The configuration check: with a counter the body, without one NOT_CONFIGURED. -/
theorem whenConfigured_true {op : Op} {s : State} (body : Host.Outcome State Fault Refusal)
    (h : s.cfgValid = true) : whenConfigured op s body = body := by simp [whenConfigured, h]

theorem whenConfigured_false {op : Op} {s : State} (body : Host.Outcome State Fault Refusal)
    (h : s.cfgValid = false) : whenConfigured op s body = raise (some op) .notConfigured s := by
  simp [whenConfigured, h]

/-- What INIT can do. -/
theorem execInit_cases (p : Nat) (s : State) :
    ((p < 4 ∨ 16 < p) ∧ execInit p s = raise (some .init) .invalidPrecision s) ∨
    ((4 ≤ p ∧ p ≤ 16) ∧ execInit p s = respond (some .init) .ok 0#32
      { s with prec := BitVec.ofNat 5 p, cfgValid := true, reg := s.reg.clearBelow (2 ^ p) }) := by
  by_cases h : p < 4 ∨ 16 < p
  · exact .inl ⟨h, if_pos h⟩
  · exact .inr ⟨by omega, if_neg h⟩

/-- What ADD can do. -/
theorem execAdd_cases (h : Word32) (s : State) :
    (s.cfgValid = false ∧ execAdd h s = raise (some .add) .notConfigured s) ∨
    (s.cfgValid = true ∧ execAdd h s = respond (some .add) .ok 0#32
      { s with reg := s.reg.maxUpdate (hashIndex s.prec.toNat h) (BitVec.ofNat 8 (rank s.prec.toNat h)) }) := by
  unfold execAdd
  cases hc : s.cfgValid
  · exact .inl ⟨rfl, whenConfigured_false _ hc⟩
  · exact .inr ⟨rfl, whenConfigured_true _ hc⟩

/-- What MERGE can do. -/
theorem execMerge_cases (q : Nat) (s : State) :
    (s.cfgValid = false ∧ execMerge q s = raise (some .merge) .notConfigured s) ∨
    ((s.cfgValid = true ∧ q ≠ s.prec.toNat) ∧ execMerge q s = raise (some .merge) .precisionMismatch s) ∨
    ((s.cfgValid = true ∧ q = s.prec.toNat) ∧ execMerge q s = respond (some .merge) .ok 0#32
      { s with reg := s.reg.maxUpdateFrom s.src (regCount s) }) := by
  unfold execMerge
  cases hc : s.cfgValid
  · exact .inl ⟨rfl, whenConfigured_false _ hc⟩
  · rw [whenConfigured_true _ hc]
    by_cases hq : q = s.prec.toNat
    · exact .inr (.inr ⟨⟨rfl, hq⟩, by simp [hq]⟩)
    · exact .inr (.inl ⟨⟨rfl, hq⟩, by simp [hq]⟩)

/-- What READ can do. -/
theorem execRead_cases (k : Nat) (s : State) :
    (s.cfgValid = false ∧ execRead k s = raise (some .read) .notConfigured s) ∨
    ((s.cfgValid = true ∧ regCount s ≤ k) ∧ execRead k s = raise (some .read) .indexRange s) ∨
    ((s.cfgValid = true ∧ k < regCount s) ∧
      execRead k s = respond (some .read) .ok ((s.reg.read k).setWidth 32) s) := by
  unfold execRead
  cases hc : s.cfgValid
  · exact .inl ⟨rfl, whenConfigured_false _ hc⟩
  · rw [whenConfigured_true _ hc]
    by_cases hk : regCount s ≤ k
    · exact .inr (.inl ⟨⟨rfl, hk⟩, by rw [if_pos hk]⟩)
    · exact .inr (.inr ⟨⟨rfl, by omega⟩, by rw [if_neg hk]⟩)

/-- The precision read back from its 5 bits. -/
theorem toNat_ofNat_prec {p : Nat} (hp : p ≤ 16) : (BitVec.ofNat 5 p).toNat = p := by
  rw [BitVec.toNat_ofNat]; omega

/-- ADD's index is inside the physical storage in a legal configuration (41_add.md R91). -/
theorem hashIndex_lt_regPhys {s : State} (hs : s.prec.toNat ≤ 16) (h : Word32) :
    hashIndex s.prec.toNat h < Config.regPhys := by
  rw [hashIndex_eq, Nat.div_lt_iff_lt_mul (by positivity)]
  refine Nat.lt_of_lt_of_le h.isLt ?_
  show 2 ^ 32 ≤ 2 ^ 16 * 2 ^ (32 - s.prec.toNat)
  rw [← Nat.pow_add]
  exact Nat.pow_le_pow_right (by omega) (by omega)

/-- What every command does: it answers a next state, gives one response, and writes at most CFG_VALID, PREC and
REG, which it leaves alone, with data 0, whenever the status is not OK (60_exceptions.md R132, R133). -/
theorem exec_shape (i : Instr) (s : State) : ∃ st d cv pr rg,
    exec i s = .next { s with
      cfgValid := cv, prec := pr, reg := rg
      inFlight := some { op := some i.op, age := 0, rsp := { status := st, data := d } } } ∧
    (st ≠ .ok → d = 0#32 ∧ cv = s.cfgValid ∧ pr = s.prec ∧ rg = s.reg) := by
  have failing : ∀ st : Status, exec i s = raise (some i.op) st s → ∃ st d cv pr rg,
      exec i s = .next { s with
        cfgValid := cv, prec := pr, reg := rg
        inFlight := some { op := some i.op, age := 0, rsp := { status := st, data := d } } } ∧
      (st ≠ .ok → d = 0#32 ∧ cv = s.cfgValid ∧ pr = s.prec ∧ rg = s.reg) :=
    fun _ h => ⟨_, _, _, _, _, h, fun _ => ⟨rfl, rfl, rfl, rfl⟩⟩
  cases i with
  | init p =>
    rcases execInit_cases p s with ⟨_, h⟩ | ⟨_, h⟩
    · exact failing _ h
    · exact ⟨_, _, _, _, _, h, fun hne => absurd rfl hne⟩
  | add x =>
    rcases execAdd_cases x s with ⟨_, h⟩ | ⟨_, h⟩
    · exact failing _ h
    · exact ⟨_, _, _, _, _, h, fun hne => absurd rfl hne⟩
  | merge q =>
    rcases execMerge_cases q s with ⟨_, h⟩ | ⟨_, h⟩ | ⟨_, h⟩
    · exact failing _ h
    · exact failing _ h
    · exact ⟨_, _, _, _, _, h, fun hne => absurd rfl hne⟩
  | read k =>
    rcases execRead_cases k s with ⟨_, h⟩ | ⟨_, h⟩ | ⟨_, h⟩
    · exact failing _ h
    · exact failing _ h
    · exact ⟨_, _, _, _, _, h, fun hne => absurd rfl hne⟩
  | clz x => exact ⟨.ok, _, s.cfgValid, s.prec, s.reg, rfl, fun hne => absurd rfl hne⟩
  | rdcfg => exact ⟨.ok, _, s.cfgValid, s.prec, s.reg, rfl, fun hne => absurd rfl hne⟩

/-- The same for any accepted word, the illegal ones too. -/
theorem runWord_shape (cw : Word64) (s : State) : ∃ op st d cv pr rg,
    runWord cw s = .next { s with
      cfgValid := cv, prec := pr, reg := rg
      inFlight := some { op := op, age := 0, rsp := { status := st, data := d } } } ∧
    (st ≠ .ok → d = 0#32 ∧ cv = s.cfgValid ∧ pr = s.prec ∧ rg = s.reg) := by
  unfold runWord
  split
  · rename_i i _
    obtain ⟨st, d, cv, pr, rg, h, hfail⟩ := exec_shape i s
    exact ⟨_, st, d, cv, pr, rg, h, hfail⟩
  · exact ⟨none, .illegal, 0#32, s.cfgValid, s.prec, s.reg, rfl, fun _ => ⟨rfl, rfl, rfl, rfl⟩⟩

/-- What an accepted word can do to CFG_VALID, PREC and REG: nothing, or what a successful INIT, ADD or MERGE
does. -/
theorem runWord_counter_cases {cw : Word64} {s t : State} (h : runWord cw s = .next t) :
    (t.cfgValid = s.cfgValid ∧ t.prec = s.prec ∧ t.reg = s.reg) ∨
    (∃ p, 4 ≤ p ∧ p ≤ 16 ∧ decode cw = .ok (.init p) ∧ t.cfgValid = true ∧ t.prec = BitVec.ofNat 5 p ∧
      t.reg = s.reg.clearBelow (2 ^ p)) ∨
    (∃ x, s.cfgValid = true ∧ decode cw = .ok (.add x) ∧ t.cfgValid = s.cfgValid ∧ t.prec = s.prec ∧
      t.reg = s.reg.maxUpdate (hashIndex s.prec.toNat x) (BitVec.ofNat 8 (rank s.prec.toNat x))) ∨
    (∃ q, s.cfgValid = true ∧ decode cw = .ok (.merge q) ∧ q = s.prec.toNat ∧ t.cfgValid = s.cfgValid ∧
      t.prec = s.prec ∧ t.reg = s.reg.maxUpdateFrom s.src (regCount s)) := by
  unfold runWord at h
  split at h
  · rename_i i hd
    cases i with
    | init p =>
      rcases execInit_cases p s with ⟨c, e⟩ | ⟨c, e⟩ <;> rw [exec, e] at h <;> cases h
      · exact .inl ⟨rfl, rfl, rfl⟩
      · exact .inr (.inl ⟨p, c.1, c.2, hd, rfl, rfl, rfl⟩)
    | add x =>
      rcases execAdd_cases x s with ⟨c, e⟩ | ⟨c, e⟩ <;> rw [exec, e] at h <;> cases h
      · exact .inl ⟨rfl, rfl, rfl⟩
      · exact .inr (.inr (.inl ⟨x, c, hd, rfl, rfl, rfl⟩))
    | merge q =>
      rcases execMerge_cases q s with ⟨c, e⟩ | ⟨c, e⟩ | ⟨c, e⟩ <;> rw [exec, e] at h <;> cases h
      · exact .inl ⟨rfl, rfl, rfl⟩
      · exact .inl ⟨rfl, rfl, rfl⟩
      · exact .inr (.inr (.inr ⟨q, c.1, hd, c.2, rfl, rfl, rfl⟩))
    | read k =>
      rcases execRead_cases k s with ⟨c, e⟩ | ⟨c, e⟩ | ⟨c, e⟩ <;> rw [exec, e] at h <;> cases h <;>
        exact .inl ⟨rfl, rfl, rfl⟩
    | clz x => cases h; exact .inl ⟨rfl, rfl, rfl⟩
    | rdcfg => cases h; exact .inl ⟨rfl, rfl, rfl⟩
  · cases h; exact .inl ⟨rfl, rfl, rfl⟩

/-- PREC of a state that satisfies the invariant. -/
theorem prec_le_of_inv {s : State} (h : s.Inv) : s.prec.toNat ≤ 16 := by
  rcases h.2.2.1 with ⟨_, h⟩ | ⟨_, _, h⟩
  · simp [h]
  · exact h

/-- The architectural registers lie inside the physical storage. -/
theorem regCount_le_of_inv {s : State} (h : s.Inv) : regCount s ≤ Config.regPhys :=
  (Nat.pow_le_pow_right (by omega) (prec_le_of_inv h) : 2 ^ s.prec.toNat ≤ 2 ^ 16)

end Sys2Proof.Machine
end

