-- ==== Sys2Proof/Laws/Interface.lean ====
section
/-! SUPPORT. Said once: what one edge can do, and from it what one step can do. -/

namespace Sys2Proof.Machine

@[simp] theorem currentEdge_nil {s : State} (h : s.pins = []) : currentEdge s = idleEdge := by
  simp [currentEdge, h]

@[simp] theorem currentEdge_cons {s : State} {e : Edge} {es : List Edge} (h : s.pins = e :: es) :
    currentEdge s = e := by
  simp [currentEdge, h]

/-- Everything an edge can do. -/
theorem edgeAction_cases (s : State) :
    ((currentEdge s).rstN = false ∧ edgeAction s = .settled (resetEdge s (currentEdge s))) ∨
    (((currentEdge s).rstN = true ∧ dutyBroken s (currentEdge s) = true) ∧
      edgeAction s = .refused .mergeSourceChanged) ∨
    ((currentEdge s).rstN = true ∧ dutyBroken s (currentEdge s) = false ∧
      ((∃ f, s.inFlight = some f ∧ (reachedLatency s f && (currentEdge s).rspReady) = true ∧
          edgeAction s = .settled (takeResponse f.rsp (pastEdge s (currentEdge s)))) ∨
        (∃ f, s.inFlight = some f ∧ (reachedLatency s f && (currentEdge s).rspReady) = false ∧
          edgeAction s = .settled (wait f (pastEdge s (currentEdge s)))) ∨
        (s.inFlight = none ∧ (currentEdge s).cmdValid = true ∧
          edgeAction s = .accepted (currentEdge s).cmdWord (pastEdge s (currentEdge s))) ∨
        (s.inFlight = none ∧ (currentEdge s).cmdValid = false ∧
          edgeAction s = .settled (pastEdge s (currentEdge s))))) := by
  unfold edgeAction
  generalize currentEdge s = e
  cases hr : e.rstN
  · exact .inl ⟨rfl, by simp [hr]⟩
  · refine .inr ?_
    cases hd : dutyBroken s e
    · refine .inr ⟨rfl, rfl, ?_⟩
      cases hf : s.inFlight with
      | none =>
        refine .inr (.inr ?_)
        cases hv : e.cmdValid
        · exact .inr ⟨rfl, rfl, by simp [hr, hd, hv]⟩
        · exact .inl ⟨rfl, rfl, by simp [hr, hd, hv]⟩
      | some f =>
        cases ht : (reachedLatency s f && e.rspReady)
        · exact .inr (.inl ⟨f, rfl, ht, by simp [hr, hd, ht]⟩)
        · exact .inl ⟨f, rfl, ht, by simp [hr, hd, ht]⟩
    · exact .inl ⟨⟨rfl, rfl⟩, by simp [hr, hd]⟩

theorem step_of_settled {s t : State} (h : edgeAction s = .settled t) : step s = .next t := by
  simp [step, h]

theorem step_of_accepted {s t : State} {cw : Word64} (h : edgeAction s = .accepted cw t) :
    step s = runWord cw t := by
  simp [step, h]

theorem step_of_refused {s : State} {r : Refusal} (h : edgeAction s = .refused r) :
    step s = .refused r := by
  simp [step, h]

/-- Nothing in flight: the host cannot break the merge-source duty. -/
theorem dutyBroken_idle {s : State} (h : s.inFlight = none) (e : Edge) : dutyBroken s e = false := by
  simp [dutyBroken, mergeReading, h]

/-- The source after an edge is the one before or a canonical new one. -/
theorem wf_sourceAt {s : State} (h : s.src.wf) (e : Edge) : (sourceAt s e).wf := by
  unfold sourceAt
  split
  · exact Memory.wf_ofCells _
  · exact h

/-- Everything a step that gives a next state can have done. -/
theorem step_cases {s t : State} (h : step s = .next t) :
    ((currentEdge s).rstN = false ∧ acceptedAt s = none ∧ t = resetEdge s (currentEdge s)) ∨
    ((currentEdge s).rstN = true ∧
      ((∃ f, s.inFlight = some f ∧ acceptedAt s = none ∧
          t = takeResponse f.rsp (pastEdge s (currentEdge s))) ∨
        (∃ f, s.inFlight = some f ∧ acceptedAt s = none ∧ t = wait f (pastEdge s (currentEdge s))) ∨
        (s.inFlight = none ∧ acceptedAt s = some ((currentEdge s).cmdWord, sourceAt s (currentEdge s)) ∧
          runWord (currentEdge s).cmdWord (pastEdge s (currentEdge s)) = .next t) ∨
        (s.inFlight = none ∧ acceptedAt s = none ∧ t = pastEdge s (currentEdge s)))) := by
  rcases edgeAction_cases s with ⟨h1, h'⟩ | ⟨_, h'⟩ | ⟨h1, _, ⟨f, h3, _, h'⟩ | ⟨f, h3, _, h'⟩ | ⟨h3, _, h'⟩ |
    ⟨h3, _, h'⟩⟩
  · rw [step_of_settled h'] at h; cases h; exact .inl ⟨h1, by simp [acceptedAt, h'], rfl⟩
  · rw [step_of_refused h'] at h; cases h
  · rw [step_of_settled h'] at h; cases h
    exact .inr ⟨h1, .inl ⟨f, h3, by simp [acceptedAt, h'], rfl⟩⟩
  · rw [step_of_settled h'] at h; cases h
    exact .inr ⟨h1, .inr (.inl ⟨f, h3, by simp [acceptedAt, h'], rfl⟩)⟩
  · rw [step_of_accepted h'] at h
    exact .inr ⟨h1, .inr (.inr (.inl ⟨h3, by simp [acceptedAt, h'], h⟩))⟩
  · rw [step_of_settled h'] at h; cases h
    exact .inr ⟨h1, .inr (.inr (.inr ⟨h3, by simp [acceptedAt, h'], rfl⟩))⟩

/-- An undisturbed edge with a command in flight: the response is taken, or the command stays in flight. -/
theorem step_undisturbed {s : State} {f : InFlight} (hf : s.inFlight = some f) (he : undisturbed s (currentEdge s)) :
    step s = .next (if (reachedLatency s f && (currentEdge s).rspReady) = true then
      takeResponse f.rsp (pastEdge s (currentEdge s)) else wait f (pastEdge s (currentEdge s))) := by
  apply step_of_settled
  unfold edgeAction
  simp only [he.1, he.2, hf, Bool.not_true, Bool.false_eq_true, if_false]
  split <;> rfl

/-- The duty at later edges is the duty at this one: in flight, an undisturbed edge changes nothing of it. -/
theorem undisturbed_wait {s : State} {f : InFlight} {e : Edge} (hf : s.inFlight = some f) (he : undisturbed s e)
    (e' : Edge) : undisturbed (wait f (pastEdge s e)) e' ↔ undisturbed s e' := by
  have hm : mergeReading (wait f (pastEdge s e)) = mergeReading s := by simp [mergeReading, wait, hf]
  unfold undisturbed dutyBroken
  rw [hm]
  cases h : mergeReading s with
  | false => simp
  | true =>
    have hs : sourceAt s e = s.src := by simpa [dutyBroken, h] using he.2
    have hw : (wait f (pastEdge s e)).src = s.src := hs
    have ha : sourceAt (wait f (pastEdge s e)) e' = sourceAt s e' := by unfold sourceAt; rw [hw]
    rw [hw, ha]

/-- A run of one more step, of any machine. -/
theorem run_succ_of_step {M : Host.Core} {s t : M.State} (k : Nat) (h : M.step s = .next t) :
    M.run (k + 1) s = M.run k t := by
  simp only [Host.Core.run, h]

/-- A run that ends in a next state begins with a step that does. -/
theorem step_of_run_succ {M : Host.Core} {s t : M.State} {k : Nat} (h : M.run (k + 1) s = .next t) :
    ∃ u, M.step s = .next u ∧ M.run k u = .next t := by
  simp only [Host.Core.run] at h
  split at h
  · exact ⟨_, by assumption, h⟩
  · cases h
  · cases h

/-- rsp_valid out of reset: the latency is reached. -/
theorem rspValid_inFlight {s : State} {e : Edge} {f : InFlight} (hf : s.inFlight = some f)
    (hr : e.rstN = true) : rspValid s e = reachedLatency s f := by
  unfold rspValid rspOut
  simp only [hf, hr, Bool.true_and]
  cases reachedLatency s f <;> rfl

end Sys2Proof.Machine
end

