-- ==== Sys2Proof/Tests/Slice0.lean ====
section
/-! SUPPORT. The model's own tests, each on one step or one decode, the expected results from
spec/95_test_vectors.md and the rules' worked examples. The witnesses of the statements' hypotheses stand in
Tests/Witnesses.lean. -/

namespace Sys2Proof.Tests

open Sys2Proof.Machine

/-- The next state of an outcome. -/
def nextOf (o : Host.Outcome State Fault Refusal) : Option State :=
  match o with
  | .next t => some t
  | _ => none

/-- A counter of precision `p` with the listed registers. -/
def counter (p : Nat) (reg : Memory) : State :=
  { State.reset with cfgValid := true, prec := BitVec.ofNat 5 p, reg := reg }

/-- What a command answers and leaves in REG: status, data, cells. -/
def result (i : Instr) (s : State) : Option (Option Response × Memory) :=
  (nextOf (exec i s)).map (fun t => (t.inFlight.map (fun f => f.rsp), t.reg))

/-! ## WellFormed: an ill-formed term for each check -/

theorem test_init_operand_too_wide : (Instr.init 65536).wellFormed = false := by decide
theorem test_merge_operand_too_wide : (Instr.merge 65536).wellFormed = false := by decide
theorem test_read_operand_too_wide : (Instr.read 65536).wellFormed = false := by decide
theorem test_operands_of_full_width_fit :
    (Instr.init 65535).wellFormed = true ∧ (Instr.add 0xFFFFFFFF#32).wellFormed = true ∧
    (Instr.clz 0xFFFFFFFF#32).wellFormed = true ∧ Instr.rdcfg.wellFormed = true := by decide

/-! ## Decode: words written out from 30_encoding.md R71; 95_test_vectors.md 2.1 and 3 -/

/-- 0001 000000000000 0000000000000101 0…0 (INIT 5, P1). -/
theorem test_decode_init :
    decode 0b0001000000000000000000000000010100000000000000000000000000000000#64 = .ok (.init 5) := by rfl

/-- 0010 000000000000 0000000000000000 d…d (ADD 0x12345678, P2). -/
theorem test_decode_add :
    decode 0b0010000000000000000000000000000000010010001101000101011001111000#64 = .ok (.add 0x12345678#32) := by rfl

/-- 0011 000000000000 0000000000000101 0…0 (MERGE 5, P2). -/
theorem test_decode_merge :
    decode 0b0011000000000000000000000000010100000000000000000000000000000000#64 = .ok (.merge 5) := by rfl

/-- 0100 000000000000 1010101111001101 0…0 (READ 43981, P3). -/
theorem test_decode_read :
    decode 0b0100000000000000101010111100110100000000000000000000000000000000#64 = .ok (.read 43981) := by rfl

/-- 0101 000000000000 0000000000000000 d…d (CLZ 0x00010000, P3). -/
theorem test_decode_clz :
    decode 0b0101000000000000000000000000000000000000000000010000000000000000#64 = .ok (.clz 0x00010000#32) := by rfl

/-- 0110 and zeros (RDCFG). -/
theorem test_decode_rdcfg :
    decode 0b0110000000000000000000000000000000000000000000000000000000000000#64 = .ok .rdcfg := by rfl

/-- R72: each reason for ILLEGAL, RSV at its lowest and highest bit (90_conflicts.md C8). -/
theorem test_decode_illegal :
    decode 0x1001000500000000#64 = .error .reservedNonzero ∧ decode 0x4800000000000000#64 = .error .reservedNonzero ∧
    decode 0x1000000500000001#64 = .error .dataNonzero ∧ decode 0x5000000100000000#64 = .error .argNonzero ∧
    decode 0x6000000000000001#64 = .error .dataNonzero ∧ decode 0x6000000100000000#64 = .error .argNonzero ∧
    decode 0x0000000000000000#64 = .error .illegalOpcode ∧ decode 0x7000000000000000#64 = .error .illegalOpcode := by
  refine ⟨rfl, rfl, rfl, rfl, rfl, rfl, rfl, rfl⟩

theorem test_decodeTableWord : decodeTableWord 64 0x3000000400000000 = some (.merge 4) := by rfl

/-! ## The commands, 95_test_vectors.md section 2 -/

/-- 2.2: PREC 5, REG[0] = 28, INIT 6. -/
theorem test_init_reconstructs : result (.init 6) (counter 5 [(0, 28#8)]) = some (some ⟨.ok, 0#32⟩, []) := by decide

/-- 2.2: PREC 5, REG[0] = 28, INIT 17. -/
theorem test_init_rejects_17 :
    result (.init 17) (counter 5 [(0, 28#8)]) = some (some ⟨.invalidPrecision, 0#32⟩, [(0, 28#8)]) := by decide

/-- 2.3: PREC 10, h = 0xDEADBEEF, j = 890, w = 1. -/
theorem test_add_deadbeef :
    result (.add 0xDEADBEEF#32) (counter 10 []) = some (some ⟨.ok, 0#32⟩, [(890, 1#8)]) := by decide

/-- 2.3: PREC 16, h = 0xABCD0000, j = 43981, u = 0, w = 17. -/
theorem test_add_zero_rank_part :
    result (.add 0xABCD0000#32) (counter 16 []) = some (some ⟨.ok, 0#32⟩, [(43981, 17#8)]) := by decide

/-- 2.5 M2: REG = [3, 0, 5], source [1, 4, 5, 2]. -/
theorem test_merge_takes_max :
    result (.merge 4) { counter 4 [(0, 3#8), (2, 5#8)] with src := [(0, 1#8), (1, 4#8), (2, 5#8), (3, 2#8)] } =
      some (some ⟨.ok, 0#32⟩, [(0, 3#8), (1, 4#8), (2, 5#8), (3, 2#8)]) := by decide

/-- 2.5 M6 and R110: no clamp, and entries at M and above are not read. -/
theorem test_merge_no_clamp :
    result (.merge 4) { counter 4 [] with src := [(0, 200#8), (16, 9#8)] } =
      some (some ⟨.ok, 0#32⟩, [(0, 200#8)]) := by decide

/-- 2.6: PREC 4, REG[0] = 200 after M6. -/
theorem test_read_register : result (.read 0) (counter 4 [(0, 200#8)]) =
    some (some ⟨.ok, 0x000000C8#32⟩, [(0, 200#8)]) := by decide

/-- 2.6: READ 32 at PREC 5. -/
theorem test_read_at_M : result (.read 32) (counter 5 []) = some (some ⟨.indexRange, 0#32⟩, []) := by decide

/-- 2.4: clz32 at both ends and in the middle. -/
theorem test_clz32_table :
    [0x00000000#32, 0x00000001#32, 0x0000FFFF#32, 0x00010000#32, 0x12345678#32, 0x80000000#32].map clz32 =
      [32, 31, 16, 15, 3, 0] := by decide

/-- 2.4: CLZ works while CFG_VALID = 0 (R102). -/
theorem test_clz_unconfigured : result (.clz 0#32) State.reset = some (some ⟨.ok, 0x00000020#32⟩, []) := by decide

/-- 2.2: RDCFG at PREC 16. -/
theorem test_rdcfg_prec16 : result .rdcfg (counter 16 []) = some (some ⟨.ok, 0x00000110#32⟩, []) := by decide

/-- 2.2: RDCFG from reset. -/
theorem test_rdcfg_reset : result .rdcfg State.reset = some (some ⟨.ok, 0x00000000#32⟩, []) := by decide

/-- 2.7: ILLEGAL wins over NOT_CONFIGURED, NOT_CONFIGURED over the mismatch (R139). -/
theorem test_priority :
    ((nextOf (runWord 0x3001000400000000#64 State.reset)).bind (fun t => t.inFlight)).map (fun f => f.rsp) =
        some ⟨.illegal, 0#32⟩ ∧
    ((nextOf (runWord 0x3000000700000000#64 State.reset)).bind (fun t => t.inFlight)).map (fun f => f.rsp) =
        some ⟨.notConfigured, 0#32⟩ := by decide

/-! ## The clock edge -/

/-- A word placed by withFetchWord runs at the very next step, from reset: INIT 4 (2.2). -/
theorem test_step_runs_placed_word :
    (nextOf (step (State.reset.withFetchWord 64 0x1000000400000000))).map
      (fun t => (t.cfgValid, t.prec, t.inFlight.map (fun f => f.rsp))) =
    some (true, 4#5, some ⟨.ok, 0#32⟩) := by decide

/-- An in-flight ADD of age 0. -/
def inFlightAdd : State :=
  { counter 5 [(0, 27#8)] with inFlight := some ⟨some .add, 0, ⟨.ok, 0#32⟩⟩ }

/-- The host takes the response: it joins the observation, the block is idle (R156). -/
theorem test_response_taken :
    (nextOf (step { inFlightAdd with pins := [{ idleEdge with rspReady := true }] })).map
      (fun t => (t.inFlight, t.taken)) = some (none, [⟨.ok, 0#32⟩]) := by decide

/-- A command presented while one is in flight is not accepted (R157). -/
theorem test_busy_block_accepts_nothing :
    (nextOf (step { inFlightAdd with pins := [commandEdge 0x1000000600000000#64] })).map
      (fun t => (t.prec, t.inFlight.map (fun f => f.age))) = some (5#5, some 1) := by decide

/-- Reset in flight: no response, the reset state (R153). -/
theorem test_reset_abandons :
    (nextOf (step { inFlightAdd with pins := [{ idleEdge with rstN := false, rspReady := true }] })).map
      (fun t => (t.cfgValid, t.prec, t.inFlight, t.taken)) = some (false, 0#5, none, []) := by decide

/-! ## The assembler (30_encoding.md R74; 95_test_vectors.md P2, P3) -/

theorem test_assemble_hex : assembleLine "add 0x12345678 ; j = 1, w = 3".toList =
    .ok (some 0x2000000012345678#64) := by rfl
theorem test_assemble_decimal : assembleLine "READ 43981".toList = .ok (some 0x4000ABCD00000000#64) := by rfl
theorem test_assemble_upper_hex : assembleLine "ADD 0xABCD0000".toList = .ok (some 0x20000000ABCD0000#64) := by rfl
theorem test_assemble_word : assembleLine ".word 0x7000000000000000".toList = .ok (some 0x7000000000000000#64) := by rfl
theorem test_assemble_does_not_fit : assembleLine "MERGE 65536".toList = .error .doesNotFit := by rfl
theorem test_assemble_add_never_truncates : assembleLine "ADD 0x100000001".toList = .error .doesNotFit := by rfl

end Sys2Proof.Tests
end

