-- ==== Sys2Proof/Tests/Witnesses.lean ====
section
/-! SUPPORT. For every statement that has hypotheses, concrete states and operands that meet all of them
together, at the boundary values of its clauses. -/

namespace Sys2Proof.Tests

open Sys2Proof.Machine

/-! ## Decoding and encoding -/

theorem witness_DecodeOfEncode :
    (Instr.init 0).wellFormed = true ∧ (Instr.merge 65535).wellFormed = true ∧ (Instr.read 65535).wellFormed = true ∧
    (Instr.add 0xFFFFFFFF#32).wellFormed = true ∧ (Instr.clz 0#32).wellFormed = true ∧
    Instr.rdcfg.wellFormed = true := by decide

theorem witness_EncodeOfDecode :
    decode 0x1000FFFF00000000#64 = .ok (.init 65535) ∧ decode 0x5000000080000000#64 = .ok (.clz 0x80000000#32) :=
  ⟨rfl, rfl⟩

theorem witness_IllegalWordsAreRejected :
    (∃ r ∈ encodingTable, r.selects 0x6000000000000000#64 = true) ∧
    decode 0x2000FFFF00000000#64 = .error .argNonzero ∧ decode 0x0FFF000000000000#64 = .error .reservedNonzero :=
  ⟨⟨⟨.rdcfg, 0x6000000000000000#64, 0xFFFFFFFFFFFFFFFF#64⟩, by decide⟩, rfl, rfl⟩

theorem witness_EncodeIsAssemblerTable : 0 < 65536 ∧ 65535 < 65536 := by decide

/-- A line of each command at the last number that fits, and at the first that does not; RDCFG. -/
theorem witness_AssemblerNeverTruncates :
    LineOf "init 65535".toList ['I', 'N', 'I', 'T'] (2 ^ 16 - 1) ∧
    LineOf "INIT 0x10000".toList ['I', 'N', 'I', 'T'] (2 ^ 16) ∧
    LineOf "ADD 0xFFFFFFFF".toList ['A', 'D', 'D'] (2 ^ 32 - 1) ∧
    LineOf "add 4294967296 ; too wide".toList ['A', 'D', 'D'] (2 ^ 32) ∧
    LineOf "Merge 65535".toList ['M', 'E', 'R', 'G', 'E'] (2 ^ 16 - 1) ∧
    LineOf "MERGE 65536".toList ['M', 'E', 'R', 'G', 'E'] (2 ^ 16) ∧
    LineOf "READ 0xffff".toList ['R', 'E', 'A', 'D'] (2 ^ 16 - 1) ∧
    LineOf "READ 65536".toList ['R', 'E', 'A', 'D'] (2 ^ 16) ∧
    LineOf "CLZ 4294967295".toList ['C', 'L', 'Z'] (2 ^ 32 - 1) ∧
    LineOf "CLZ 0x100000000".toList ['C', 'L', 'Z'] (2 ^ 32) ∧
    LineOf ".word 18446744073709551615".toList ['.', 'W', 'O', 'R', 'D'] (2 ^ 64 - 1) ∧
    LineOf ".word 0x10000000000000000".toList ['.', 'W', 'O', 'R', 'D'] (2 ^ 64) ∧
    splitWords (stripComment " rdcfg ; any state".toList) [] = ["rdcfg".toList] ∧
    assembleLine "clz 1".toList = .ok (some 0x5000000000000001#64) := by
  refine ⟨?_, ?_, ?_, ?_, ?_, ?_, ?_, ?_, ?_, ?_, ?_, ?_, rfl, rfl⟩ <;> exact ⟨_, _, rfl, rfl, rfl⟩

/-- 0x00aBcD0f and 0X...: letters in both cases, two leading zeros. -/
theorem witness_NumbersAreDecimalOrHex :
    ('X' = 'x' ∨ 'X' = 'X') ∧
    "00aBcD0f".toList.map Char.toUpper = List.replicate 2 '0' ++ (Nat.toDigits 16 0xABCD0F).map Char.toUpper := by
  decide

theorem witness_LineIsMnemonicNumberComment :
    plainWord ['c', 'l', 'z'] ∧ plainWord ['0', 'x', '1', 'F'] ∧ blanks [' ', '\t'] ∧ blanks [] ∧ [' ', '\t'] ≠ [] ∧
    isComment [] ∧ isComment [';', ' ', 'w', ';'] :=
  ⟨by simp [plainWord], by simp [plainWord], by simp [blanks], by simp [blanks], by simp, .inl rfl, .inr ⟨_, rfl⟩⟩

/-! ## The clock edge -/

/-- A MERGE that passed its checks is in flight. -/
def inFlightMerge : State :=
  { counter 4 [] with inFlight := some ⟨some .merge, 0, ⟨.ok, 0#32⟩⟩ }

/-- Reset with one edge presenting a word. -/
def presented (cw : Word64) : State := { State.reset with pins := [commandEdge cw] }

theorem witness_StepRunsAcceptedCommand :
    (presented 0x1000001000000000#64).pins = [commandEdge 0x1000001000000000#64] ∧
    (presented 0x1000001000000000#64).inFlight = none ∧ (commandEdge 0x1000001000000000#64).rstN = true ∧
    (commandEdge 0x1000001000000000#64).cmdValid = true ∧
    decode (commandEdge 0x1000001000000000#64).cmdWord = .ok (.init 16) := ⟨rfl, rfl, rfl, rfl, rfl⟩

/-- One edge that accepts, one that does not because a command is in flight. -/
theorem witness_AcceptanceRule :
    acceptedAt (presented 0x6000000000000000#64) = some (0x6000000000000000#64, []) ∧
    acceptedAt { inFlightAdd with pins := [commandEdge 0x6000000000000000#64] } = none := ⟨rfl, rfl⟩

theorem witness_ResetState : idleEdge.rstN = true := rfl

/-- An edge with rst_n = 0. -/
def resetPulse : Edge := { idleEdge with rstN := false }

theorem witness_InResetNothingHappens_and_ResetAbandonsCommand :
    { inFlightAdd with pins := [resetPulse] }.pins = [resetPulse] ∧ resetPulse.rstN = false := ⟨rfl, rfl⟩

/-- Two idle states that differ only in an entry at or above M, and two unconfigured ones that differ in a
register; both step. -/
theorem witness_HiddenRegistersNeverObserved :
    ((counter 4 [(3, 1#8)]).Inv ∧ (counter 4 [(3, 1#8), (16, 7#8)]).Inv ∧
      sameButHiddenRegs (counter 4 [(3, 1#8)]) (counter 4 [(3, 1#8), (16, 7#8)]) ∧
      step (counter 4 [(3, 1#8)]) = .next (counter 4 [(3, 1#8)])) ∧
    (sameButHiddenRegs State.reset { State.reset with reg := [(0, 7#8)] } ∧
      State.Inv { State.reset with reg := [(0, 7#8)] }) := by
  refine ⟨⟨by decide, by decide, ⟨rfl, rfl, rfl, rfl, rfl, rfl, rfl, fun _ => ?_⟩, rfl⟩,
    ⟨rfl, rfl, rfl, rfl, rfl, rfl, rfl, fun h => absurd h (by decide)⟩, by decide⟩
  decide

/-- Taken, and held: a latency not reached, and a host that is not ready. -/
theorem witness_ResponseHeldUntilTaken :
    let taking : Edge := { idleEdge with rspReady := true }
    let s := { inFlightAdd with pins := [taking] }
    let late := { s with lat := { Latencies.least with add := 2 } }
    dutyBroken s taking = false ∧ s.inFlight = some ⟨some .add, 0, ⟨.ok, 0#32⟩⟩ ∧ rspValid s taking = true ∧
    rspOut s taking = some ⟨.ok, 0#32⟩ ∧ dutyBroken late taking = false ∧ rspValid late taking = false ∧
    rspValid s idleEdge = true ∧ idleEdge.rspReady = false := by decide

/-- A host that puts an array on an edge without being ready, and one that is ready. -/
def reloading : Edge := { idleEdge with newSrc := some [(0, 1#8)] }
def taking : Edge := { idleEdge with rspReady := true }

/-- LAT_ADD = 2: the source changes in flight, then the response is taken; LAT_MERGE = 2 for a MERGE that reads the
array the host puts there again. -/
theorem witness_CommandAnsweredAfterLatency :
    let s := { inFlightAdd with pins := [reloading, taking], lat := { Latencies.least with add := 2 } }
    let m := { inFlightMerge with
      pins := [reloading, taking], src := [(0, 1#8)], lat := { Latencies.least with merge := [2, 2, 2, 2, 2] } }
    (s.inFlight = some ⟨some .add, 0, ⟨.ok, 0#32⟩⟩ ∧ 0 < latency s (some .add) ∧
      (∀ e ∈ s.pins.take (latency s (some .add) - 0), undisturbed s e) ∧
      s.pins[latency s (some .add) - 0 - 1]? = some taking ∧ taking.rspReady = true) ∧
    (m.inFlight = some ⟨some .merge, 0, ⟨.ok, 0#32⟩⟩ ∧ 0 < latency m (some .merge) ∧
      (∀ e ∈ m.pins.take (latency m (some .merge) - 0), undisturbed m e) ∧
      m.pins[latency m (some .merge) - 0 - 1]? = some taking) := by decide

/-- LAT_ADD = 2: one cycle before it, the source changing, and at it. -/
theorem witness_ResponseNotBeforeLatency :
    let s := { inFlightAdd with pins := [reloading], lat := { Latencies.least with add := 2 } }
    s.inFlight = some ⟨some .add, 0, ⟨.ok, 0#32⟩⟩ ∧ 0 + 1 < latency s (some .add) ∧
    ∀ e ∈ s.pins.take 1, undisturbed s e := by decide

theorem witness_OneCommandInFlight :
    let s := { inFlightAdd with pins := [{ idleEdge with rspReady := true }] }
    inFlightAdd.inFlight ≠ none ∧ acceptedAt (presented 0#64) = some (0#64, []) ∧
    s.inFlight ≠ none ∧ (currentEdge s).rstN = true ∧ dutyBroken s (currentEdge s) = false ∧
    rspValid s (currentEdge s) = true ∧ (currentEdge s).rspReady = true := by decide

/-- Two idle cycles in which cmd_word, rsp_ready and the merge source all move. -/
theorem witness_IdleKeepsState :
    let e : Edge := { rstN := true, cmdValid := false, cmdWord := 0x1000000400000000#64, rspReady := true,
                      newSrc := some [(1, 2#8)] }
    { counter 4 [] with pins := [e, e] }.inFlight = none ∧
    ∀ x ∈ { counter 4 [] with pins := [e, e] }.pins.take 2, x.rstN = true ∧ x.cmdValid = false := by decide

/-- INIT 4 accepted, its response taken: two edges from reset. -/
theorem witness_RunIsSequenceOfTransactions :
    let s := { State.reset with pins := [commandEdge 0x1000000400000000#64, { idleEdge with rspReady := true }] }
    (∀ e ∈ s.pins.take 2, e.rstN = true) ∧
    Host.Core.run core 2 s =
      .next { State.reset with cfgValid := true, prec := 4#5, taken := [⟨.ok, 0#32⟩] } ∧
    acceptedIn 2 s = [(0x1000000400000000#64, [])] := ⟨by decide, rfl, rfl⟩

/-- A reset edge, an idle edge and one that accepts a word. -/
theorem witness_EveryStepIsOneTransactionOrNone :
    (safeStep { inFlightAdd with pins := [resetPulse] } ∧
      (currentEdge { inFlightAdd with pins := [resetPulse] }).rstN = false) ∧
    (safeStep State.reset ∧ (currentEdge State.reset).rstN = true ∧ acceptedAt State.reset = none) ∧
    (safeStep (presented 0x1000000400000000#64) ∧
      acceptedAt (presented 0x1000000400000000#64) = some (0x1000000400000000#64, [])) :=
  ⟨⟨⟨_, rfl⟩, rfl⟩, ⟨⟨_, rfl⟩, rfl, rfl⟩, ⟨_, rfl⟩, rfl⟩

/-- Both outcomes: the source changed while a MERGE reads it, and an ordinary step. -/
theorem witness_StepStopsOnlyOnBrokenDuty :
    step { inFlightMerge with pins := [{ idleEdge with newSrc := some [(0, 1#8)] }] } =
      .refused .mergeSourceChanged ∧
    ∀ r, step State.reset ≠ .refused r := ⟨rfl, fun r h => by cases h⟩

theorem witness_MergeAddressBelowM :
    (∃ f, inFlightMerge.inFlight = some f ∧ resetPulse.rstN = false) ∧
    (∃ f, inFlightAdd.inFlight = some f ∧ f.op ≠ some .merge) := ⟨⟨_, rfl, rfl⟩, ⟨_, rfl, by decide⟩⟩

/-! ## Invariants -/

theorem witness_StepKeepsInvariant :
    State.Inv (presented 0x1000001000000000#64) ∧
    step (presented 0x1000001000000000#64) = .next
      { State.reset with cfgValid := true, prec := 16#5, inFlight := some ⟨some .init, 0, ⟨.ok, 0#32⟩⟩ } :=
  ⟨by decide, rfl⟩

/-- A state about to run ADD 0x12345678 at PREC 4. -/
def addAtPrec4 : State := { counter 4 [(1, 5#8)] with pins := [commandEdge 0x2000000012345678#64] }

/-- A state about to run MERGE 4 with a source within the bound. -/
def mergeAtPrec4 : State :=
  { counter 4 [(1, 5#8)] with pins := [commandEdge 0x3000000400000000#64], src := [(15, 29#8)] }

theorem acceptedAt_addAtPrec4 : acceptedAt addAtPrec4 = some (0x2000000012345678#64, []) := rfl

theorem acceptedAt_mergeAtPrec4 : acceptedAt mergeAtPrec4 = some (0x3000000400000000#64, [(15, 29#8)]) := rfl

theorem witness_RegistersNeverDecrease :
    addAtPrec4.reg.wf ∧ addAtPrec4.src.wf ∧ safeStep addAtPrec4 ∧ (currentEdge addAtPrec4).rstN = true ∧
    (∀ x, acceptedAt addAtPrec4 = some x → ∀ p, 4 ≤ p → p ≤ 16 → decode x.1 ≠ .ok (.init p)) := by
  refine ⟨by decide, by decide, ⟨_, rfl⟩, rfl, fun x hx p _ _ hd => ?_⟩
  rw [acceptedAt_addAtPrec4] at hx
  cases hx
  cases hd

theorem witness_RegistersStayWithinRankBound :
    mergeAtPrec4.Inv ∧ rankBounded mergeAtPrec4 ∧ safeStep mergeAtPrec4 ∧
    (∀ x, acceptedAt mergeAtPrec4 = some x → ∀ q, decode x.1 = .ok (.merge q) →
      ∀ a, a < regCount mergeAtPrec4 → (Memory.read x.2 a).toNat ≤ 33 - mergeAtPrec4.prec.toNat) := by
  refine ⟨by decide, by decide, ⟨_, rfl⟩, fun x hx q _ => ?_⟩
  rw [acceptedAt_mergeAtPrec4] at hx
  cases hx
  decide

/-- INIT 3 from reset: accepted, and still no counter. -/
theorem witness_NoCounterBeforeInit :
    let s := presented 0x1000000300000000#64
    s.cfgValid = false ∧ (∃ t, Host.Core.run core 1 s = .next t) ∧ acceptedIn 1 s = [(0x1000000300000000#64, [])] ∧
    ∀ p, 4 ≤ p → p ≤ 16 → decode 0x1000000300000000#64 ≠ .ok (.init p) := by
  refine ⟨rfl, ⟨_, rfl⟩, rfl, fun p h4 _ hd => ?_⟩
  have h3 : decode 0x1000000300000000#64 = .ok (.init 3) := rfl
  rw [h3] at hd
  cases hd
  omega

theorem witness_ConfigurationWrittenOnlyByInit :
    safeStep addAtPrec4 ∧ (currentEdge addAtPrec4).rstN = true ∧ addAtPrec4.cfgValid = true ∧
    (∀ x, acceptedAt addAtPrec4 = some x → ∀ p, 4 ≤ p → p ≤ 16 → decode x.1 ≠ .ok (.init p)) :=
  ⟨⟨_, rfl⟩, rfl, rfl, witness_RegistersNeverDecrease.2.2.2.2⟩

theorem witness_SourceNeverWritten :
    (∃ t, exec (.merge 4) mergeAtPrec4 = .next t) ∧ safeStep mergeAtPrec4 := ⟨⟨_, rfl⟩, ⟨_, rfl⟩⟩

/-! ## The commands -/

theorem witness_InitConstructsCounter :
    ((0x1000FFFF00000000#64).extractLsb' 60 4 = 1#4 ∧ argOnly 0x1000FFFF00000000#64) ∧
    ((0x1000000500000001#64).extractLsb' 60 4 = 1#4 ∧ ¬ argOnly 0x1000000500000001#64) ∧
    (4 ≤ 4 ∧ 4 ≤ 16) ∧ (4 ≤ 16 ∧ 16 ≤ 16) ∧ (3 < 4 ∨ 16 < 3) ∧ (17 < 4 ∨ 16 < 17) := by
  unfold argOnly; decide

theorem witness_RdcfgReadsConfiguration :
    (0x6000000000000000#64).extractLsb' 60 4 = 6#4 ∧ (0x6000000000000001#64).extractLsb' 60 4 = 6#4 ∧
    (0x6000000000000001#64 : Word64) ≠ 0x6000000000000000#64 := by decide

/-- PREC 4 and 16 with a counter; none after reset. -/
theorem witness_AddMaxUpdatesIndexedRegister :
    ((0x20000000FFFFFFFF#64).extractLsb' 60 4 = 2#4 ∧ dataOnly 0x20000000FFFFFFFF#64) ∧
    ((0x2000000100000000#64).extractLsb' 60 4 = 2#4 ∧ ¬ dataOnly 0x2000000100000000#64) ∧
    ((counter 4 [(15, 1#8)]).cfgValid = true ∧ (counter 4 [(15, 1#8)]).reg.wf) ∧
    ((counter 16 [(65535, 1#8)]).cfgValid = true ∧ (counter 16 [(65535, 1#8)]).reg.wf) ∧
    State.reset.cfgValid = false := by
  unfold dataOnly; decide

theorem witness_AddIndexBelowM :
    (∃ t, exec (.add 0xF0000000#32) (counter 4 []) = .next t) ∧ 0 ≠ hashIndex 4 0xF0000000#32 :=
  ⟨⟨_, rfl⟩, by decide⟩

/-- A rank part of zero, and one whose most significant 1 is bit 31 - PREC, at both ends of the precisions. -/
theorem witness_RankIsLeadingOnePosition :
    rankPart 4 0xF0000000#32 = 0#32 ∧ rankPart 16 0xABCD0000#32 = 0#32 ∧
    ((rankPart 4 0xFFFFFFFF#32).getLsbD 27 = true ∧
      ∀ b, 27 < b → b < 32 → (rankPart 4 0xFFFFFFFF#32).getLsbD b = false) ∧
    ((rankPart 16 0x00010001#32).getLsbD 0 = true ∧
      ∀ b, 0 < b → b < 32 → (rankPart 16 0x00010001#32).getLsbD b = false) := by
  refine ⟨by decide, by decide, ⟨by decide, fun b h1 h2 => ?_⟩, by decide, fun b h1 h2 => ?_⟩ <;>
    interval_cases b <;> rfl

theorem witness_MaxUpdateNeverLowers :
    Memory.wf [(65535, 9#8)] ∧ 65535 < Config.regPhys ∧ (9#8).toNat ≤ (Memory.read [(65535, 9#8)] 65535).toNat := by
  decide

theorem witness_AddIsIdempotent :
    (counter 4 [(1, 5#8)]).Inv ∧ (counter 4 [(1, 5#8)]).cfgValid = true ∧
    ∃ t u, exec (.add 0x10000000#32) (counter 4 [(1, 5#8)]) = .next t ∧ exec (.add 0x10000000#32) t = .next u :=
  ⟨by decide, rfl, _, _, rfl, rfl⟩

theorem witness_RankBySentinel_and_MaskBits : (4 ≤ 4 ∧ 4 ≤ 16) ∧ (4 ≤ 16 ∧ 16 ≤ 16) ∧ 0 < 32 ∧ 31 < 32 := by decide

theorem witness_ClzCountsLeadingZeros :
    (0x80000000#32).getLsbD 31 = true ∧
    ((0x00000001#32).getLsbD 0 = true ∧ ∀ b, 0 < b → b < 32 → (0x00000001#32).getLsbD b = false) := by
  refine ⟨by decide, by decide, fun b h1 h2 => ?_⟩
  interval_cases b <;> rfl

/-- The laws' hypotheses: a shift by all leading zeros, and values below 2^(32-n) at both ends of n. -/
theorem witness_ClzLaws :
    ((0x00000001#32 : Word32) ≠ 0#32 ∧ 31 ≤ clz32 0x00000001#32) ∧
    ((0#32).toNat < 2 ^ (32 - 32) ∧ (0xFFFFFFFF#32).toNat < 2 ^ (32 - 0)) ∧
    (0#32).toNat ≤ (0xFFFFFFFF#32).toNat := by decide

theorem witness_ClzCommandAnswersCount :
    ((0x50000000FFFFFFFF#64).extractLsb' 60 4 = 5#4 ∧ dataOnly 0x50000000FFFFFFFF#64) ∧
    ((0x5000000100000000#64).extractLsb' 60 4 = 5#4 ∧ ¬ dataOnly 0x5000000100000000#64) := by
  unfold dataOnly; decide

theorem witness_MergeTakesRegisterwiseMax :
    ((0x3000000400000000#64).extractLsb' 60 4 = 3#4 ∧ argOnly 0x3000000400000000#64) ∧
    ((0x3001000400000000#64).extractLsb' 60 4 = 3#4 ∧ ¬ argOnly 0x3001000400000000#64) ∧
    (mergeAtPrec4.cfgValid = true ∧ 4 = mergeAtPrec4.prec.toNat ∧ mergeAtPrec4.reg.wf ∧ mergeAtPrec4.src.wf) ∧
    ((counter 16 []).cfgValid = true ∧ 16 = (counter 16 []).prec.toNat) ∧
    State.reset.cfgValid = false ∧ 5 ≠ mergeAtPrec4.prec.toNat := by
  unfold argOnly; decide

theorem witness_MergeOrderIsImmaterial :
    mergeAtPrec4.Inv ∧ mergeAtPrec4.cfgValid = true ∧
    (List.range (regCount mergeAtPrec4)).reverse.Perm (List.range (regCount mergeAtPrec4)) :=
  ⟨by decide, rfl, List.reverse_perm _⟩

/-- Three canonical sources, the third the maximum of the others, and a counter of precision 4. -/
theorem witness_MergeLaws :
    let s := counter 4 [(1, 5#8)]
    let u := counter 4 [(0, 7#8)]
    let b : Memory := [(0, 1#8), (1, 4#8)]
    let c : Memory := [(1, 9#8), (15, 2#8)]
    let d : Memory := [(0, 1#8), (1, 9#8), (15, 2#8)]
    s.Inv ∧ u.Inv ∧ u.prec = s.prec ∧ b.wf ∧ c.wf ∧ d.wf ∧
    (∀ a, a < regCount s → (Memory.read d a).toNat = max (Memory.read b a).toNat (Memory.read c a).toNat) ∧
    (∃ s₁, Merged s u.reg s₁) ∧ (∃ u₁, Merged u s.reg u₁) ∧
    (∃ sb sbc sbb, Merged s b sb ∧ Merged sb c sbc ∧ Merged sb b sbb) ∧
    (∃ sc scb, Merged s c sc ∧ Merged sc b scb) ∧ (∃ sd, Merged s d sd) ∧
    (∃ m ma, Merged s b m ∧ exec (.add 1#32) m = .next ma) ∧
    (∃ a am, exec (.add 1#32) s = .next a ∧ Merged a b am) := by
  refine ⟨by decide, by decide, by decide, by decide, by decide, by decide, by decide, ⟨_, rfl, rfl⟩, ⟨_, rfl, rfl⟩,
    ⟨_, _, _, ⟨rfl, rfl⟩, ⟨rfl, rfl⟩, rfl, rfl⟩, ⟨_, _, ⟨rfl, rfl⟩, rfl, rfl⟩, ⟨_, rfl, rfl⟩,
    ⟨_, _, ⟨rfl, rfl⟩, rfl⟩, ⟨_, _, rfl, rfl, rfl⟩⟩

theorem witness_SelfMergeIsNoOp :
    (counter 4 [(1, 5#8)]).Inv ∧ ∃ t, Merged (counter 4 [(1, 5#8)]) (counter 4 [(1, 5#8)]).reg t :=
  ⟨by decide, _, rfl, rfl⟩

/-- A MERGE with a second source that differs only at M, and an ADD with any second source. -/
theorem witness_SourceMattersOnlyBelowM :
    mergeAtPrec4.Inv ∧ Memory.wf [(15, 29#8), (16, 1#8)] ∧ (∃ t, exec (.merge 4) mergeAtPrec4 = .next t) ∧
    (∀ a, a < regCount mergeAtPrec4 → Memory.read [(15, 29#8), (16, 1#8)] a = mergeAtPrec4.src.read a) ∧
    (Instr.add 0#32).op ≠ .merge := ⟨by decide, by decide, ⟨_, rfl⟩, by decide, by decide⟩

theorem witness_ReadAnswersRegister :
    ((0x4000FFFF00000000#64).extractLsb' 60 4 = 4#4 ∧ argOnly 0x4000FFFF00000000#64) ∧
    ((0x4000000000000001#64).extractLsb' 60 4 = 4#4 ∧ ¬ argOnly 0x4000000000000001#64) ∧
    ((counter 4 []).cfgValid = true ∧ 15 < 2 ^ (counter 4 []).prec.toNat) ∧
    ((counter 16 []).cfgValid = true ∧ 65535 < 2 ^ (counter 16 []).prec.toNat) ∧
    2 ^ (counter 4 []).prec.toNat ≤ 16 ∧ State.reset.cfgValid = false := by
  unfold argOnly; decide

theorem witness_ReadingAllRegistersObservesFile :
    (counter 4 [(1, 5#8)]).cfgValid = true ∧ (counter 4 [(1, 5#8)]).prec.toNat ≤ 16 := by decide

/-- INIT 17 fails from a constructed counter. -/
theorem witness_FailingCommandChangesNothing :
    ∃ t f, runWord 0x1000001100000000#64 (counter 5 [(0, 28#8)]) = .next t ∧ t.inFlight = some f ∧
      f.rsp.status ≠ .ok := ⟨_, _, rfl, rfl, by decide⟩

/-- The response of an ADD, presented. -/
theorem witness_StatusCodes : rspOut inFlightAdd idleEdge = some ⟨.ok, 0#32⟩ := by decide

end Sys2Proof.Tests
end

section
/-! SUPPORT. 00_scope.md R12: a command reads nothing of the host's side but the merge source, and one clock
edge is one command, none, or a reset. -/

namespace Sys2Proof.Machine

/-! ## What an outcome keeps of the host's side -/

/-- The same block with other input, another record of responses and other latencies. -/
def withHostSide (pins : List Edge) (taken : List Response) (lat : Latencies) (s : State) : State :=
  { s with pins := pins, taken := taken, lat := lat }

/-- The same with something else in flight too: all a command does not read. -/
def withUnread (g : Option InFlight) (pins : List Edge) (taken : List Response) (lat : Latencies) (s : State) :
    State :=
  { withHostSide pins taken lat s with inFlight := g }

/-- A change of the next state; a stop stays what it is. -/
def mapNext (f : State → State) : Host.Outcome State Fault Refusal → Host.Outcome State Fault Refusal
  | .next t => .next (f t)
  | .fault r => .fault r
  | .refused r => .refused r

@[simp] theorem mapNext_next (f : State → State) (t : State) : mapNext f (.next t) = .next (f t) := rfl

section
variable (g : Option InFlight) (pins : List Edge) (taken : List Response) (lat : Latencies)

@[simp] theorem withUnread_cfgValid (s : State) : (withUnread g pins taken lat s).cfgValid = s.cfgValid := rfl

theorem whenConfigured_withUnread {op : Op} {s : State} {body body' : Host.Outcome State Fault Refusal}
    (h : body' = mapNext (withHostSide pins taken lat) body) :
    whenConfigured op (withUnread g pins taken lat s) body' =
      mapNext (withHostSide pins taken lat) (whenConfigured op s body) := by
  have hcfg := withUnread_cfgValid g pins taken lat s
  cases hc : s.cfgValid with
  | false =>
    rw [whenConfigured_false body hc, whenConfigured_false body' (hcfg.trans hc)]
    rfl
  | true => rw [whenConfigured_true body hc, whenConfigured_true body' (hcfg.trans hc), h]

/-- No command looks at what is in flight, the coming input, the record or the latencies, and none writes the last
three; its response replaces what was in flight. -/
theorem exec_withUnread (i : Instr) (s : State) :
    exec i (withUnread g pins taken lat s) =
      mapNext (withHostSide pins taken lat) (exec i s) := by
  cases i with
  | init p =>
    simp only [exec, execInit, apply_ite (mapNext _)]
    rfl
  | add h => exact whenConfigured_withUnread g pins taken lat rfl
  | merge q =>
    refine whenConfigured_withUnread g pins taken lat ?_
    rw [apply_ite (mapNext _)]
    rfl
  | read k =>
    refine whenConfigured_withUnread g pins taken lat ?_
    rw [apply_ite (mapNext _)]
    rfl
  | clz x => rfl
  | rdcfg => rfl

theorem runWord_withUnread (cw : Word64) (s : State) :
    runWord cw (withUnread g pins taken lat s) =
      mapNext (withHostSide pins taken lat) (runWord cw s) := by
  unfold runWord
  cases decode cw with
  | ok i => exact exec_withUnread g pins taken lat i s
  | error e => rfl

end

/-! ## A command as a transaction -/

theorem runWord_of_decode {cw : Word64} {i : Instr} (h : decode cw = .ok i) (s : State) :
    runWord cw s = exec i s := by
  simp only [runWord, h]

/-- A command's response is in flight after it, and the responses taken are those before it. -/
theorem runWord_inFlight_taken {cw : Word64} {s t : State} (h : runWord cw s = .next t) :
    ∃ f, t.inFlight = some f ∧ t.taken = s.taken := by
  obtain ⟨op, st, d, cv, pr, rg, hrun, -⟩ := runWord_shape cw s
  obtain rfl := Host.Outcome.next.inj (hrun.symm.trans h)
  exact ⟨_, rfl, rfl⟩

theorem runWord_isNext (cw : Word64) (s : State) : ∃ t, runWord cw s = .next t := by
  obtain ⟨op, st, d, cv, pr, rg, hrun, -⟩ := runWord_shape cw s
  exact ⟨_, hrun⟩

/-- The state `commandStep` runs the word on is `s` with the host's side of reset. -/
theorem stateOf_counterOf (s : State) :
    stateOf (counterOf s) s.src = withUnread none [] [] Latencies.least s := rfl

@[simp] theorem counterOf_withHostSide (pins : List Edge) (taken : List Response) (lat : Latencies) (s : State) :
    counterOf (withHostSide pins taken lat s) = counterOf s := rfl

@[simp] theorem withHostSide_inFlight (pins : List Edge) (taken : List Response) (lat : Latencies) (s : State) :
    (withHostSide pins taken lat s).inFlight = s.inFlight := rfl

/-- A word run on a whole state does to the architectural part what R12's step does. -/
theorem commandStep_of_runWord {cw : Word64} {s t : State} {f : InFlight} (h : runWord cw s = .next t)
    (hf : t.inFlight = some f) :
    commandStep (counterOf s) cw s.src = some (counterOf t, f.rsp) := by
  simp [commandStep, stateOf_counterOf, runWord_withUnread, h, hf]

/-! ## The counter and the responses over one edge -/

@[simp] theorem counterOf_pastEdge (s : State) (e : Edge) : counterOf (pastEdge s e) = counterOf s := rfl

@[simp] theorem counterOf_takeResponse (r : Response) (s : State) :
    counterOf (takeResponse r s) = counterOf s := rfl

@[simp] theorem counterOf_wait (f : InFlight) (s : State) : counterOf (wait f s) = counterOf s := rfl

@[simp] theorem history_resetEdge (s : State) (e : Edge) : history (resetEdge s e) = [] := rfl

@[simp] theorem history_pastEdge (s : State) (e : Edge) : history (pastEdge s e) = history s := rfl

theorem history_of_idle {s : State} (h : s.inFlight = none) : history s = s.taken := by
  simp [history, h]

theorem history_of_inFlight {s : State} {f : InFlight} (h : s.inFlight = some f) :
    history s = s.taken ++ [f.rsp] := by
  simp [history, h]

/-- Taking the response in flight only moves it within the record. -/
theorem history_takeResponse {s : State} {f : InFlight} (h : s.inFlight = some f) :
    history (takeResponse f.rsp s) = history s := by
  rw [history_of_idle (takeResponse_inFlight f.rsp s), history_of_inFlight h, takeResponse_taken]

theorem history_wait {s : State} {f : InFlight} (h : s.inFlight = some f) :
    history (wait f s) = history s := by
  rw [history_of_inFlight (wait_inFlight f s), history_of_inFlight h, wait_taken]

/-- An idle block runs the word of an edge with rst_n = 1 and cmd_valid = 1 (70_reset_and_hazards.md R155). -/
theorem step_of_accepting {s : State} (hidle : s.inFlight = none) (hr : (currentEdge s).rstN = true)
    (hv : (currentEdge s).cmdValid = true) :
    step s = runWord (currentEdge s).cmdWord (pastEdge s (currentEdge s)) := by
  apply step_of_accepted
  simp [edgeAction, hidle, hr, hv, dutyBroken_idle hidle]

/-! ## The statements -/

/-- Settles O53, by the cases of one step: each branch is a reset, one transaction, or leaves the counter and the
responses alone. -/
theorem everyStepIsOneTransactionOrNone : Obligations.EveryStepIsOneTransactionOrNone := by
  unfold Obligations.EveryStepIsOneTransactionOrNone
  intro s t hstep
  rcases step_cases hstep with ⟨hr, hacc, rfl⟩ |
    ⟨hr, ⟨f, hf, hacc, rfl⟩ | ⟨f, hf, hacc, rfl⟩ | ⟨hidle, hacc, hrun⟩ | ⟨-, hacc, rfl⟩⟩
  · simp [hr, hacc]
  · have hhist : history (takeResponse f.rsp (pastEdge s (currentEdge s))) = history s :=
      history_takeResponse (s := pastEdge s (currentEdge s)) hf
    simp [hr, hacc, hhist]
  · have hhist : history (wait f (pastEdge s (currentEdge s))) = history s :=
      history_wait (s := pastEdge s (currentEdge s)) hf
    simp [hr, hacc, hhist]
  · obtain ⟨f, hf, htaken⟩ := runWord_inFlight_taken hrun
    have hcmd : commandStep (counterOf s) (currentEdge s).cmdWord (sourceAt s (currentEdge s)) =
        some (counterOf t, f.rsp) := commandStep_of_runWord hrun hf
    have hhist : history t = history s ++ [f.rsp] := by
      rw [history_of_inFlight hf, htaken, pastEdge_taken, history_of_idle hidle]
    simp [hr, hacc, hcmd, hhist]
  · simp [hr, hacc]

/-- Settles O20: the outcome is that of `commandStep`, and another host's side passes through the command
unread. -/
theorem commandDependsOnArchitecturalState : Obligations.CommandDependsOnArchitecturalState := by
  unfold Obligations.CommandDependsOnArchitecturalState
  intro cw s
  obtain ⟨t, hrun⟩ := runWord_isNext cw s
  obtain ⟨f, hf, -⟩ := runWord_inFlight_taken hrun
  refine ⟨t, f, hrun, hf, commandStep_of_runWord hrun hf, fun g pins taken lat => ?_⟩
  have hhost := runWord_withUnread g pins taken lat cw s
  rwa [hrun] at hhost

/-- Settles O8: the accepting edge runs its word, which is the command it decodes to. -/
theorem stepRunsAcceptedCommand : Obligations.StepRunsAcceptedCommand := by
  unfold Obligations.StepRunsAcceptedCommand
  intro s e es i hpins hidle hr hv hdec
  have hedge : currentEdge s = e := currentEdge_cons hpins
  calc step s = runWord e.cmdWord (pastEdge s e) := by
        simpa [hedge] using step_of_accepting hidle (by rwa [hedge]) (by rwa [hedge])
    _ = exec i (pastEdge s e) := runWord_of_decode hdec _
    _ = exec i { s with pins := es, src := sourceAt s e } := by simp [pastEdge, hpins]

end Sys2Proof.Machine
end

section
/-! SUPPORT. 10_state.md: what one step does to CFG_VALID, PREC and REG, the invariant of R20, and that registers
that are not architectural (R26) are never observed. -/

namespace Sys2Proof.Machine

/-! ## What one step does to the counter -/

theorem step_of_reset {s : State} (hr : (currentEdge s).rstN = false) :
    step s = .next (resetEdge s (currentEdge s)) :=
  step_of_settled (by simp [edgeAction, hr])

/-- Everything a step without reset can do to the architectural state: keep it, or what a successful INIT, ADD or
MERGE accepted at that edge does. -/
inductive CounterMove (s t : State) : Prop
  | kept (ht : counterOf t = counterOf s)
  | init (x : Word64 × Memory) (p : Nat) (hacc : acceptedAt s = some x) (hdec : decode x.1 = .ok (.init p))
      (h4 : 4 ≤ p) (h16 : p ≤ 16) (ht : counterOf t = ⟨true, BitVec.ofNat 5 p, s.reg.clearBelow (2 ^ p)⟩)
  | add (x : Word64 × Memory) (h : Word32) (hacc : acceptedAt s = some x) (hdec : decode x.1 = .ok (.add h))
      (ht : counterOf t = ⟨s.cfgValid, s.prec,
        s.reg.maxUpdate (hashIndex s.prec.toNat h) (BitVec.ofNat 8 (rank s.prec.toNat h))⟩)
  | merge (x : Word64 × Memory) (q : Nat) (hacc : acceptedAt s = some x) (hdec : decode x.1 = .ok (.merge q))
      (ht : counterOf t = ⟨s.cfgValid, s.prec, s.reg.maxUpdateFrom x.2 (regCount s)⟩)

theorem counterOf_eq_iff {s : State} {cv : Bool} {pr : BitVec 5} {rg : Memory} :
    counterOf s = ⟨cv, pr, rg⟩ ↔ s.cfgValid = cv ∧ s.prec = pr ∧ s.reg = rg := by
  simp [counterOf]

theorem reg_of_counterOf_eq {s : State} {c : Counter} (h : counterOf s = c) : s.reg = c.reg := congrArg Counter.reg h

theorem counterMove_of_step {s t : State} (h : step s = .next t) (hr : (currentEdge s).rstN = true) :
    CounterMove s t := by
  rcases step_cases h with ⟨hr', -, -⟩ | ⟨-, ⟨f, -, -, rfl⟩ | ⟨f, -, -, rfl⟩ | ⟨-, hacc, hrun⟩ | ⟨-, -, rfl⟩⟩
  · simp [hr] at hr'
  · exact .kept rfl
  · exact .kept rfl
  · rcases runWord_counter_cases hrun with ht | ⟨p, h4, h16, hdec, ht⟩ | ⟨x, -, hdec, ht⟩ | ⟨q, -, hdec, -, ht⟩
    · exact .kept (counterOf_eq_iff.mpr ht)
    · exact .init _ p hacc hdec h4 h16 (counterOf_eq_iff.mpr ht)
    · exact .add _ x hacc hdec (counterOf_eq_iff.mpr ht)
    · exact .merge _ q hacc hdec (counterOf_eq_iff.mpr ht)
  · exact .kept rfl

/-- The source an accepted command sees is canonical when the one before the edge is. -/
theorem wf_acceptedSource {s : State} {x : Word64 × Memory} (hs : s.src.wf) (hacc : acceptedAt s = some x) :
    x.2.wf := by
  rcases edgeAction_cases s with ⟨-, h⟩ | ⟨-, h⟩ | ⟨-, -, ⟨f, -, -, h⟩ | ⟨f, -, -, h⟩ | ⟨-, -, h⟩ | ⟨-, -, h⟩⟩ <;>
    simp only [acceptedAt, h, reduceCtorEq, Option.some.injEq] at hacc
  subst hacc
  exact wf_sourceAt hs _

/-- The rank is at most 33 - PREC, also after its narrowing to a register (41_add.md R92). -/
theorem rank_toNat_le {p : Nat} (hp : p ≤ 32) (h : Word32) : (BitVec.ofNat 8 (rank p h)).toNat ≤ 33 - p := by
  have hclz : clz32 (rankPart p h) ≤ 32 := clzScan_le _ 32
  calc (BitVec.ofNat 8 (rank p h)).toNat ≤ rank p h := by rw [BitVec.toNat_ofNat]; exact Nat.mod_le _ _
    _ ≤ 33 - p := by unfold rank; omega

theorem rankBounded_of_counterOf {t : State} {c : Counter} (ht : counterOf t = c)
    (h : c.cfgValid = true → ∀ a, a < 2 ^ c.prec.toNat → (c.reg.read a).toNat ≤ 33 - c.prec.toNat) :
    rankBounded t := by
  subst ht
  exact h

/-! ## The invariant -/

/-- The invariant speaks of the counter, the source and the responses alone. -/
theorem inv_of_same {s t : State} (h : s.Inv) (hc : counterOf t = counterOf s) (hsrc : t.src = s.src)
    (hh : history t = history s) : t.Inv := by
  obtain ⟨hcv, hpr, hrg⟩ := counterOf_eq_iff.mp hc
  simpa only [State.Inv, legalConfig, hcv, hpr, hrg, hsrc, hh] using h

theorem inv_resetEdge {s : State} (h : s.Inv) (e : Edge) : (resetEdge s e).Inv := by
  obtain ⟨-, hsrc, -, -⟩ := h
  exact ⟨Memory.wf_nil, wf_sourceAt hsrc e, .inl ⟨rfl, rfl⟩, by simp⟩

theorem inv_pastEdge {s : State} (h : s.Inv) (e : Edge) : (pastEdge s e).Inv := by
  obtain ⟨hreg, hsrc, hcfg, hhist⟩ := h
  exact ⟨hreg, wf_sourceAt hsrc e, hcfg, hhist⟩

theorem wf_reg_of_runWord {cw : Word64} {s t : State} (h : s.Inv) (hrun : runWord cw s = .next t) : t.reg.wf := by
  have hprec := prec_le_of_inv h
  obtain ⟨hreg, hsrc, -, -⟩ := h
  rcases runWord_counter_cases hrun with ⟨-, -, ht⟩ | ⟨p, -, -, -, -, -, ht⟩ | ⟨x, -, -, -, -, ht⟩ |
    ⟨q, -, -, -, -, -, ht⟩ <;> rw [ht]
  · exact hreg
  · exact Memory.wf_clearBelow hreg _
  · exact Memory.wf_maxUpdate hreg (hashIndex_lt_regPhys hprec x) _
  · exact Memory.wf_maxUpdateFrom hreg hsrc.2.2 _

theorem legalConfig_of_runWord {cw : Word64} {s t : State} (h : legalConfig s) (hrun : runWord cw s = .next t) :
    legalConfig t := by
  rcases runWord_counter_cases hrun with ⟨hcv, hpr, -⟩ | ⟨p, h4, h16, -, hcv, hpr, -⟩ | ⟨x, -, -, hcv, hpr, -⟩ |
    ⟨q, -, -, -, hcv, hpr, -⟩
  · simpa only [legalConfig, hcv, hpr] using h
  · exact .inr ⟨hcv, by rw [hpr, toNat_ofNat_prec h16]; exact ⟨h4, h16⟩⟩
  · simpa only [legalConfig, hcv, hpr] using h
  · simpa only [legalConfig, hcv, hpr] using h

/-- A command that starts idle adds one response of R66's form and leaves the source alone. -/
theorem runWord_src_history {cw : Word64} {s t : State} (hidle : s.inFlight = none) (hrun : runWord cw s = .next t) :
    t.src = s.src ∧ ∃ r : Response, r.wf ∧ history t = history s ++ [r] := by
  obtain ⟨op, st, d, cv, pr, rg, hshape, hfail⟩ := runWord_shape cw s
  obtain rfl := Host.Outcome.next.inj (hshape.symm.trans hrun)
  refine ⟨rfl, ⟨st, d⟩, ?_, by rw [history_of_idle hidle]; rfl⟩
  by_cases hok : st = .ok
  · exact .inl hok
  · exact .inr (hfail hok).1

theorem inv_of_runWord {cw : Word64} {s t : State} (h : s.Inv) (hidle : s.inFlight = none)
    (hrun : runWord cw s = .next t) : t.Inv := by
  have hreg : t.reg.wf := wf_reg_of_runWord h hrun
  obtain ⟨-, hsrc, hcfg, hhist⟩ := h
  obtain ⟨hsrc', r, hr, hhist'⟩ := runWord_src_history hidle hrun
  refine ⟨hreg, ?_, legalConfig_of_runWord hcfg hrun, ?_⟩
  · rwa [hsrc']
  · rw [hhist']
    intro r' hr'
    rcases List.mem_append.mp hr' with hold | hnew
    · exact hhist r' hold
    · rwa [List.mem_singleton.mp hnew]

/-! ## Registers that are not architectural -/

/-- The same block with another register file. -/
def withReg (m : Memory) (s : State) : State := { s with reg := m }

/-- The file agrees with that of the state on every architectural register. -/
abbrev agreesBelowM (m : Memory) (s : State) : Prop :=
  s.cfgValid = true → ∀ a, a < regCount s → m.read a = s.reg.read a

/-- Two states equal but for hidden registers are one state with two register files. -/
theorem exists_withReg_of_sameButHiddenRegs {s s' : State} (h : sameButHiddenRegs s s') :
    ∃ m, s' = withReg m s ∧ agreesBelowM m s := by
  obtain ⟨hcv, hpr, hfl, hsrc, hpins, htk, hlat, hagree⟩ := h
  refine ⟨s'.reg, ?_, hagree⟩
  cases s'
  simp_all only [withReg]

theorem sameButHiddenRegs_withReg {m : Memory} {s : State} (h : agreesBelowM m s) :
    sameButHiddenRegs s (withReg m s) := ⟨rfl, rfl, rfl, rfl, rfl, rfl, rfl, h⟩

/-- Both outcomes are next states, equal but for hidden registers. -/
def sameNext (o o' : Host.Outcome State Fault Refusal) : Prop :=
  ∃ t t', o = .next t ∧ o' = .next t' ∧ sameButHiddenRegs t t'

/-- One response given by two states equal but for hidden registers. -/
theorem sameNext_respond (op : Option Op) (st : Status) (d : Word32) {m : Memory} {s : State}
    (h : agreesBelowM m s) : sameNext (respond op st d s) (respond op st d (withReg m s)) :=
  ⟨_, _, rfl, rfl, sameButHiddenRegs_withReg h⟩

theorem sameNext_ite (c : Prop) [Decidable c] {yes yes' no no' : Host.Outcome State Fault Refusal}
    (hyes : c → sameNext yes yes') (hno : ¬ c → sameNext no no') :
    sameNext (if c then yes else no) (if c then yes' else no') := by
  split
  · next hc => exact hyes hc
  · next hc => exact hno hc

theorem sameNext_whenConfigured (op : Op) {m : Memory} {s : State} {body body' : Host.Outcome State Fault Refusal}
    (h : agreesBelowM m s) (hbody : s.cfgValid = true → sameNext body body') :
    sameNext (whenConfigured op s body) (whenConfigured op (withReg m s) body') := by
  cases hc : s.cfgValid with
  | false =>
    rw [whenConfigured_false body hc, whenConfigured_false (s := withReg m s) body' hc]
    exact sameNext_respond _ _ _ h
  | true =>
    rw [whenConfigured_true body hc, whenConfigured_true (s := withReg m s) body' hc]
    exact hbody hc

section
variable {m : Memory} {s : State}

theorem sameNext_execInit (h : agreesBelowM m s) (p : Nat) :
    sameNext (execInit p s) (execInit p (withReg m s)) := by
  refine sameNext_ite _ (fun _ => sameNext_respond _ _ _ h) fun hp => ⟨_, _, rfl, rfl,
    sameButHiddenRegs_withReg (m := m.clearBelow (2 ^ p)) fun _ a ha => ?_⟩
  have h16 : p ≤ 16 := by simp only [Config.pMax] at hp; omega
  have hclear : a < 2 ^ p := by simpa only [regCount, toNat_ofNat_prec h16] using ha
  rw [Memory.read_clearBelow, Memory.read_clearBelow, if_pos hclear, if_pos hclear]

theorem sameNext_execAdd (hm : m.wf) (hs : s.reg.wf) (h : agreesBelowM m s) (x : Word32) :
    sameNext (execAdd x s) (execAdd x (withReg m s)) := by
  refine sameNext_whenConfigured _ h fun hc => ⟨_, _, rfl, rfl, sameButHiddenRegs_withReg
    (m := m.maxUpdate (hashIndex s.prec.toNat x) (BitVec.ofNat 8 (rank s.prec.toNat x))) fun _ a ha => ?_⟩
  have hread := h hc a ha
  rw [Memory.read_maxUpdate hm, Memory.read_maxUpdate hs]
  split
  · next hj => rw [hj, hread]
  · exact hread

theorem sameNext_execMerge (hm : m.wf) (hs : s.reg.wf) (hsrc : s.src.wf) (h : agreesBelowM m s) (q : Nat) :
    sameNext (execMerge q s) (execMerge q (withReg m s)) := by
  refine sameNext_whenConfigured _ h fun hc => sameNext_ite (q ≠ s.prec.toNat)
    (fun _ => sameNext_respond _ _ _ h) fun _ => ⟨_, _, rfl, rfl,
      sameButHiddenRegs_withReg (m := m.maxUpdateFrom s.src (regCount s)) fun _ a ha => ?_⟩
  rw [Memory.read_maxUpdateFrom hm hsrc, Memory.read_maxUpdateFrom hs hsrc, h hc a ha]

theorem sameNext_execRead (h : agreesBelowM m s) (k : Nat) :
    sameNext (execRead k s) (execRead k (withReg m s)) := by
  refine sameNext_whenConfigured _ h fun hc => sameNext_ite (regCount s ≤ k)
    (fun _ => sameNext_respond _ _ _ h) fun hk => ?_
  have hread : (withReg m s).reg.read k = s.reg.read k := h hc k (Nat.lt_of_not_le hk)
  rw [hread]
  exact sameNext_respond _ _ _ h

theorem sameNext_runWord (hm : m.wf) (hs : s.reg.wf) (hsrc : s.src.wf) (h : agreesBelowM m s) (cw : Word64) :
    sameNext (runWord cw s) (runWord cw (withReg m s)) := by
  unfold runWord
  cases decode cw with
  | error _ => exact sameNext_respond _ _ _ h
  | ok i =>
    cases i with
    | init p => exact sameNext_execInit h p
    | add x => exact sameNext_execAdd hm hs h x
    | merge q => exact sameNext_execMerge hm hs hsrc h q
    | read k => exact sameNext_execRead h k
    | clz x => exact sameNext_respond _ _ _ h
    | rdcfg => exact sameNext_respond _ _ _ h

end

/-- The state an edge action carries, changed. -/
def mapAction (f : State → State) : EdgeAction → EdgeAction
  | .settled t => .settled (f t)
  | .accepted cw t => .accepted cw (f t)
  | .refused r => .refused r

/-- Out of reset an edge neither reads nor writes a register before it runs a command. -/
theorem edgeAction_withReg (m : Memory) {s : State} (hr : (currentEdge s).rstN = true) :
    edgeAction (withReg m s) = mapAction (withReg m) (edgeAction s) := by
  have hr' : (currentEdge (withReg m s)).rstN = true := hr
  simp only [edgeAction, hr, hr', Bool.not_true, Bool.false_eq_true, if_false, apply_ite (mapAction (withReg m))]
  refine ite_congr rfl (fun _ => rfl) fun _ => ?_
  obtain ⟨cv, pr, rg, inFlight, src, pins, taken, lat⟩ := s
  cases inFlight with
  | none => dsimp only [withReg]; rw [apply_ite (mapAction _)]; rfl
  | some f => dsimp only [withReg]; rw [apply_ite (mapAction _)]; rfl

/-- An edge that settles two states equal but for hidden registers, without writing one. -/
theorem sameNext_of_settled {m : Memory} {s u : State} (hr : (currentEdge s).rstN = true)
    (hact : edgeAction s = .settled u) (h : agreesBelowM m u) : sameNext (step s) (step (withReg m s)) := by
  have hact' : edgeAction (withReg m s) = .settled (withReg m u) := by rw [edgeAction_withReg m hr, hact]; rfl
  exact ⟨_, _, step_of_settled hact, step_of_settled hact', sameButHiddenRegs_withReg h⟩

theorem sameNext_step {m : Memory} {s t : State} (hm : m.wf) (hs : s.reg.wf) (hsrc : s.src.wf)
    (h : agreesBelowM m s) (hstep : step s = .next t) : sameNext (step s) (step (withReg m s)) := by
  rcases edgeAction_cases s with ⟨hr, -⟩ | ⟨-, hact⟩ | ⟨hr, -, ⟨f, -, -, hact⟩ | ⟨f, -, -, hact⟩ | ⟨-, -, hact⟩ |
    ⟨-, -, hact⟩⟩
  · exact ⟨_, _, step_of_reset hr, step_of_reset (s := withReg m s) hr,
      sameButHiddenRegs_withReg (m := []) fun _ _ _ => rfl⟩
  · simp [step_of_refused hact] at hstep
  · exact sameNext_of_settled hr hact h
  · exact sameNext_of_settled hr hact h
  · have hact' : edgeAction (withReg m s) =
        .accepted (currentEdge s).cmdWord (withReg m (pastEdge s (currentEdge s))) := by
      rw [edgeAction_withReg m hr, hact]; rfl
    rw [step_of_accepted hact, step_of_accepted hact']
    exact sameNext_runWord (s := pastEdge s (currentEdge s)) hm hs (wf_sourceAt hsrc _) h _
  · exact sameNext_of_settled hr hact h

/-! ## The statements -/

/-- Settles O13: the two states are one state with two register files, and no command reads an entry where the files
may differ. -/
theorem hiddenRegistersNeverObserved : Obligations.HiddenRegistersNeverObserved := by
  unfold Obligations.HiddenRegistersNeverObserved
  rintro s s' t ⟨hreg, hsrc, -, -⟩ ⟨hreg', -, -, -⟩ hsame hstep
  obtain ⟨m, rfl, hagree⟩ := exists_withReg_of_sameButHiddenRegs hsame
  obtain ⟨u, t', hu, ht', htt'⟩ := sameNext_step hreg' hreg hsrc hagree hstep
  obtain rfl := Host.Outcome.next.inj (hu.symm.trans hstep)
  exact ⟨t', ht', htt'⟩

/-- Settles O24, by the cases of one step: only a command and reset change what the invariant speaks of. -/
theorem stepKeepsInvariant : Obligations.StepKeepsInvariant := by
  unfold Obligations.StepKeepsInvariant
  intro s t hinv hstep
  have hpast : (pastEdge s (currentEdge s)).Inv := inv_pastEdge hinv _
  rcases step_cases hstep with ⟨-, -, rfl⟩ | ⟨-, ⟨f, hf, -, rfl⟩ | ⟨f, hf, -, rfl⟩ | ⟨hidle, -, hrun⟩ | ⟨-, -, rfl⟩⟩
  · exact inv_resetEdge hinv _
  · exact inv_of_same hpast rfl rfl (history_takeResponse (s := pastEdge s (currentEdge s)) hf)
  · exact inv_of_same hpast rfl rfl (history_wait (s := pastEdge s (currentEdge s)) hf)
  · exact inv_of_runWord hpast hidle hrun
  · exact hpast

/-- Settles O25: ADD and MERGE write maxima, and only INIT, which is excluded, clears. -/
theorem registersNeverDecrease : Obligations.RegistersNeverDecrease := by
  unfold Obligations.RegistersNeverDecrease
  intro s t hreg hsrc hstep hr hno a
  cases counterMove_of_step hstep hr with
  | kept ht => exact Nat.le_of_eq (congrArg (fun c : Counter => (c.reg.read a).toNat) ht.symm)
  | init x p hacc hdec h4 h16 => exact absurd hdec (hno x hacc p h4 h16)
  | add x h _ _ ht =>
    rw [reg_of_counterOf_eq ht, Memory.read_maxUpdate hreg]
    split
    · next hj => rw [umax_toNat, hj]; exact le_max_left _ _
    · exact le_refl _
  | merge x q hacc _ ht =>
    rw [reg_of_counterOf_eq ht, Memory.read_maxUpdateFrom hreg (wf_acceptedSource hsrc hacc)]
    split
    · rw [umax_toNat]; exact le_max_left _ _
    · exact le_refl _

/-- Settles O26: INIT writes 0, ADD a rank, MERGE a maximum of two values within the bound. -/
theorem registersStayWithinRankBound : Obligations.RegistersStayWithinRankBound := by
  unfold Obligations.RegistersStayWithinRankBound
  intro s t hinv hbound hstep hmerge
  have hprec : s.prec.toNat ≤ 16 := prec_le_of_inv hinv
  obtain ⟨hreg, hsrc, -, -⟩ := hinv
  cases hr : (currentEdge s).rstN with
  | false =>
    obtain rfl := Host.Outcome.next.inj ((step_of_reset hr).symm.trans hstep)
    exact fun hcfg => absurd hcfg Bool.false_ne_true
  | true =>
    cases counterMove_of_step hstep hr with
    | kept ht => exact rankBounded_of_counterOf ht hbound
    | init x p _ _ _ h16 ht =>
      refine rankBounded_of_counterOf ht fun _ a ha => ?_
      rw [toNat_ofNat_prec h16] at ha
      rw [Memory.read_clearBelow, if_pos ha]
      exact Nat.zero_le _
    | add x h _ _ ht =>
      refine rankBounded_of_counterOf ht fun hcfg a ha => ?_
      have hrank := rank_toNat_le (p := s.prec.toNat) (by omega) h
      rw [Memory.read_maxUpdate hreg]
      split
      · next hj => rw [umax_toNat, hj]; exact max_le (hbound hcfg a ha) hrank
      · exact hbound hcfg a ha
    | merge x q hacc hdec ht =>
      refine rankBounded_of_counterOf ht fun hcfg a ha => ?_
      rw [Memory.read_maxUpdateFrom hreg (wf_acceptedSource hsrc hacc), if_pos (show a < regCount s from ha), umax_toNat]
      exact max_le (hbound hcfg a ha) (hmerge x hacc q hdec a ha)

/-- Settles O28: of the moves of the counter only INIT's writes the configuration, and it sets CFG_VALID. -/
theorem configurationWrittenOnlyByInit : Obligations.ConfigurationWrittenOnlyByInit := by
  unfold Obligations.ConfigurationWrittenOnlyByInit
  intro s t hstep hr
  have keeping : ∀ {rg : Memory}, counterOf t = ⟨s.cfgValid, s.prec, rg⟩ →
      (t.cfgValid = s.cfgValid ∧ t.prec = s.prec) ∧ (s.cfgValid = true → t.cfgValid = true) := by
    intro rg ht
    obtain ⟨hcv, hpr, -⟩ := counterOf_eq_iff.mp ht
    exact ⟨⟨hcv, hpr⟩, hcv.trans⟩
  cases counterMove_of_step hstep hr with
  | kept ht => exact (keeping ht).imp_left fun h _ => h
  | init x p hacc hdec h4 h16 ht =>
    exact ⟨fun hno => absurd hdec (hno x hacc p h4 h16), fun _ => (counterOf_eq_iff.mp ht).1⟩
  | add x h _ _ ht => exact (keeping ht).imp_left fun h _ => h
  | merge x q _ _ ht => exact (keeping ht).imp_left fun h _ => h

/-- Settles O23: reset holds empty spaces, no counter and no response. -/
theorem resetSatisfiesInvariant : Obligations.ResetSatisfiesInvariant := by
  unfold Obligations.ResetSatisfiesInvariant
  exact ⟨reset_spaces_wf.1, reset_spaces_wf.2, .inl ⟨rfl, rfl⟩, by simp [history]⟩

/-- Settles O38: bit b of a shift by PREC is bit PREC + b of 32 ones. -/
theorem maskBits : Obligations.MaskBits := by
  unfold Obligations.MaskBits
  intro p b _ h16 _
  have hbit : (maskOf p).getLsbD b = decide (p + b < 32) := by
    rw [maskOf, BitVec.getLsbD_ushiftRight, show (0xFFFFFFFF#32) = BitVec.allOnes 32 from rfl, BitVec.getLsbD_allOnes]
  rw [hbit, decide_eq_true_iff]
  omega

end Sys2Proof.Machine
end

section
/-! SUPPORT. 20_memory.md: the merge source is read by MERGE alone and below M only (R44, R45), and a counter merged
with itself stays as it is (R54). -/

namespace Sys2Proof.Machine

/-! ## ms_addr -/

/-- The only time the block reads the source: a MERGE of status OK is in flight (20_memory.md R44). -/
theorem mergeReading_iff {s : State} : mergeReading s = true ↔
    ∃ f, s.inFlight = some f ∧ f.op = some .merge ∧ f.rsp.status = .ok := by
  unfold mergeReading
  cases s.inFlight with
  | none => simp
  | some f => simp

/-- Everything a driven ms_addr says: an index below M, out of reset, during such a MERGE. -/
theorem msAddr_driven {s : State} {e : Edge} {a : Nat} (h : msAddr s e = some a) :
    a < regCount s ∧ e.rstN = true ∧ mergeReading s = true := by
  unfold msAddr at h
  split at h
  · cases h
  · split at h
    · next hdriving =>
      obtain ⟨hrst, hreading⟩ := Bool.and_eq_true_iff.mp hdriving
      obtain ⟨i, -, rfl⟩ := Option.map_eq_some_iff.mp h
      exact ⟨Nat.mod_lt _ (Nat.two_pow_pos _), hrst, hreading⟩
    · cases h

/-- Settles O22: a driven ms_addr names its MERGE, and that excludes reset and every other command in flight. -/
theorem mergeAddressBelowM : Obligations.MergeAddressBelowM := by
  unfold Obligations.MergeAddressBelowM
  refine ⟨fun s e => ?_, fun s e f hf hidle => ?_⟩
  · cases haddr : msAddr s e with
    | none => exact .inl rfl
    | some a =>
      obtain ⟨ha, hrst, hreading⟩ := msAddr_driven haddr
      obtain ⟨f, hf, hop, hok⟩ := mergeReading_iff.mp hreading
      exact .inr ⟨a, f, rfl, ha, hrst, hf, hop, hok⟩
  · refine Option.eq_none_iff_forall_ne_some.mpr fun a haddr => ?_
    obtain ⟨-, hrst, hreading⟩ := msAddr_driven haddr
    obtain ⟨f', hf', hop, hok⟩ := mergeReading_iff.mp hreading
    obtain rfl := Option.some.inj (hf.symm.trans hf')
    rcases hidle with hreset | hother | hfailed
    · simp [hrst] at hreset
    · exact hother hop
    · exact hfailed hok

/-! ## What a command reads of the source -/

/-- The same block with another merge source. -/
def withSrc (m : Memory) (s : State) : State := { s with src := m }

/-- MERGE's loop reads the source below n only (43_merge.md R110). -/
theorem Memory.maxUpdateFrom_congr {m src src' : Memory} {n : Nat} (hm : m.wf) (hsrc : src.wf) (hsrc' : src'.wf)
    (h : ∀ a, a < n → src.read a = src'.read a) : m.maxUpdateFrom src n = m.maxUpdateFrom src' n := by
  refine Memory.ext_read (Memory.wf_maxUpdateFrom hm hsrc.2.2 n) (Memory.wf_maxUpdateFrom hm hsrc'.2.2 n) fun a => ?_
  rw [Memory.read_maxUpdateFrom hm hsrc, Memory.read_maxUpdateFrom hm hsrc']
  split
  · next ha => rw [h a ha]
  · rfl

section
variable {m : Memory} {s : State}

theorem whenConfigured_withSrc {op : Op} {body body' : Host.Outcome State Fault Refusal}
    (h : body' = mapNext (withSrc m) body) :
    whenConfigured op (withSrc m s) body' = mapNext (withSrc m) (whenConfigured op s body) := by
  cases hc : s.cfgValid with
  | false =>
    rw [whenConfigured_false body hc, whenConfigured_false (s := withSrc m s) body' hc]
    rfl
  | true => rw [whenConfigured_true body hc, whenConfigured_true (s := withSrc m s) body' hc, h]

/-- A successful MERGE writes one file under both sources when they give its loop the same file. -/
theorem execMerge_withSrc (h : s.reg.maxUpdateFrom m (regCount s) = s.reg.maxUpdateFrom s.src (regCount s)) (q : Nat) :
    execMerge q (withSrc m s) = mapNext (withSrc m) (execMerge q s) := by
  refine whenConfigured_withSrc ?_
  rw [apply_ite (mapNext _)]
  refine ite_congr rfl (fun _ => rfl) fun _ => ?_
  simp only [respond_eq, mapNext_next, withSrc, ← h]
  rfl

/-- Another source passes through a command unread, unless the command is a MERGE whose loop it changes. -/
theorem exec_withSrc {i : Instr}
    (h : i.op = .merge → s.reg.maxUpdateFrom m (regCount s) = s.reg.maxUpdateFrom s.src (regCount s)) :
    exec i (withSrc m s) = mapNext (withSrc m) (exec i s) := by
  cases i with
  | init p =>
    simp only [exec, execInit, apply_ite (mapNext _)]
    rfl
  | add x => exact whenConfigured_withSrc rfl
  | merge q => exact execMerge_withSrc (h rfl) q
  | read k =>
    refine whenConfigured_withSrc ?_
    rw [apply_ite (mapNext _)]
    rfl
  | clz x => rfl
  | rdcfg => rfl

end

/-- Settles O46: sources that agree below M give MERGE's loop one file, and no other command reads the source. -/
theorem sourceMattersOnlyBelowM : Obligations.SourceMattersOnlyBelowM := by
  unfold Obligations.SourceMattersOnlyBelowM
  rintro i s t m ⟨hreg, hsrc, -, -⟩ hm hexec hcases
  have hloop : i.op = .merge → s.reg.maxUpdateFrom m (regCount s) = s.reg.maxUpdateFrom s.src (regCount s) := by
    intro hmerge
    rcases hcases with hother | hagree
    · exact absurd hmerge hother
    · exact Memory.maxUpdateFrom_congr hreg hm hsrc hagree
  calc exec i (withSrc m s) = mapNext (withSrc m) (exec i s) := exec_withSrc hloop
    _ = .next (withSrc m t) := by rw [hexec, mapNext_next]

/-! ## A counter as its own source -/

theorem umax_self (a : Byte) : umax a a = a := by
  unfold umax
  exact ite_self a

/-- MERGE's loop with the file itself as the source writes back what is there. -/
theorem Memory.maxUpdateFrom_self {m : Memory} (hm : m.wf) (n : Nat) : m.maxUpdateFrom m n = m := by
  refine Memory.ext_read (Memory.wf_maxUpdateFrom hm hm.2.2 n) hm fun a => ?_
  rw [Memory.read_maxUpdateFrom hm hm, umax_self, ite_self]

/-- What a successful MERGE leaves of the counter: CFG_VALID and PREC, and the file of MERGE's loop. -/
theorem counterOf_of_merged {s t : State} {src : Memory} (h : Merged s src t) :
    counterOf t = ⟨s.cfgValid, s.prec, s.reg.maxUpdateFrom src (regCount s)⟩ := by
  obtain ⟨hcfg, hexec⟩ := h
  rcases execMerge_cases s.prec.toNat (withSrc src s) with ⟨hnone, -⟩ | ⟨⟨-, hne⟩, -⟩ | ⟨-, hok⟩
  · exact absurd (hnone.symm.trans hcfg) Bool.false_ne_true
  · exact absurd rfl hne
  · obtain rfl := Host.Outcome.next.inj (hok.symm.trans hexec)
    rfl

/-- Settles O45: the register-wise maximum of the file with itself is the file. -/
theorem selfMergeIsNoOp : Obligations.SelfMergeIsNoOp := by
  unfold Obligations.SelfMergeIsNoOp
  rintro s t ⟨hreg, -, -, -⟩ hmerged
  calc counterOf t = ⟨s.cfgValid, s.prec, s.reg.maxUpdateFrom s.reg (regCount s)⟩ := counterOf_of_merged hmerged
    _ = counterOf s := by rw [Memory.maxUpdateFrom_self hreg]; rfl

end Sys2Proof.Machine
end

section
/-! SUPPORT. 30_encoding.md R60 to R72 and the column "encodes to" of R74: decoding and encoding are inverse, the rows
of R71, the illegal words. -/

namespace Sys2Proof

/-! ## What each kind of command decodes from -/

section
variable {cw : Word64} {i j : Instr}

theorem withArg_eq_ok {mk : Nat → Instr} :
    withArg mk cw = .ok i ↔ fieldData cw = 0#32 ∧ mk (fieldArg cw).toNat = i := by
  unfold withArg
  split <;> simp [*]

theorem withData_eq_ok {mk : Word32 → Instr} :
    withData mk cw = .ok i ↔ fieldArg cw = 0#16 ∧ mk (fieldData cw) = i := by
  unfold withData
  split <;> simp [*]

theorem withNothing_eq_ok :
    withNothing j cw = .ok i ↔ fieldArg cw = 0#16 ∧ fieldData cw = 0#32 ∧ j = i := by
  unfold withNothing
  by_cases harg : fieldArg cw = 0#16 <;> by_cases hdata : fieldData cw = 0#32 <;> simp [harg, hdata]

theorem withArg_eq_error {mk : Nat → Instr} : (∃ e, withArg mk cw = .error e) ↔ fieldData cw ≠ 0#32 := by
  unfold withArg
  split <;> simp [*]

theorem withData_eq_error {mk : Word32 → Instr} : (∃ e, withData mk cw = .error e) ↔ fieldArg cw ≠ 0#16 := by
  unfold withData
  split <;> simp [*]

theorem withNothing_eq_error :
    (∃ e, withNothing j cw = .error e) ↔ fieldData cw ≠ 0#32 ∨ fieldArg cw ≠ 0#16 := by
  unfold withNothing
  by_cases harg : fieldArg cw = 0#16 <;> by_cases hdata : fieldData cw = 0#32 <;> simp [harg, hdata]

theorem decode_of_rsv_nonzero (h : fieldRsv cw ≠ 0#12) : decode cw = .error .reservedNonzero := by
  unfold decode
  exact if_pos h

theorem rsv_zero_of_decode (h : decode cw = .ok i) : fieldRsv cw = 0#12 := by
  by_contra hrsv
  rw [decode_of_rsv_nonzero hrsv] at h
  cases h

end

/-! ## Decoding and encoding are inverse -/

/-- The fields of R61 make the whole word. -/
theorem assembleWord_eq_iff {cw : Word64} {opc : BitVec 4} {a : BitVec 16} {d : Word32} :
    assembleWord opc a d = cw ↔ fieldRsv cw = 0#12 ∧ fieldOpc cw = opc ∧ fieldArg cw = a ∧ fieldData cw = d := by
  constructor
  · rintro rfl
    simp
  · rintro ⟨hrsv, rfl, rfl, rfl⟩
    exact assembleWord_fields cw hrsv

/-- A command decodes from its own word when its operand fits (30_encoding.md R61, R62). -/
theorem decode_encode {i : Instr} (h : i.wellFormed = true) : decode (encode i) = .ok i := by
  have hrsv : fieldRsv (encode i) = 0#12 := by cases i <;> exact fieldRsv_assembleWord _ _ _
  rw [decode_of_rsv_zero hrsv]
  cases i with
  | init p | merge p | read p =>
    have hfits : p < 65536 := of_decide_eq_true h
    simp [encode, withArg, hfits]
  | add x | clz x => simp [encode, withData]
  | rdcfg => simp [encode, withNothing]

/-- A decoded operand fits its field, and the word it came from has no other bit set (R71, R72). -/
theorem encode_of_decode {cw : Word64} {i : Instr} (h : decode cw = .ok i) : i.wellFormed = true ∧ encode i = cw := by
  have hrsv := rsv_zero_of_decode h
  have hfits : decide ((fieldArg cw).toNat < 2 ^ 16) = true := decide_eq_true (fieldArg cw).isLt
  have harg : fieldArg cw = BitVec.ofNat 16 (fieldArg cw).toNat := by simp
  have hword {opc : BitVec 4} {a : BitVec 16} {d : Word32} (hopc : (fieldOpc cw).toNat = opc.toNat)
      (ha : fieldArg cw = a) (hd : fieldData cw = d) : assembleWord opc a d = cw :=
    assembleWord_eq_iff.mpr ⟨hrsv, BitVec.eq_of_toNat_eq hopc, ha, hd⟩
  rw [decode_of_rsv_zero hrsv] at h
  split at h
  case h_1 hopc | h_3 hopc | h_4 hopc =>
    obtain ⟨hdata, rfl⟩ := withArg_eq_ok.mp h
    exact ⟨hfits, hword hopc harg hdata⟩
  case h_2 hopc | h_5 hopc =>
    obtain ⟨harg0, rfl⟩ := withData_eq_ok.mp h
    exact ⟨rfl, hword hopc harg0 rfl⟩
  case h_6 hopc =>
    obtain ⟨harg0, hdata, rfl⟩ := withNothing_eq_ok.mp h
    exact ⟨rfl, hword hopc harg0 hdata⟩
  case h_7 => cases h

theorem decode_eq_ok_iff {cw : Word64} {i : Instr} : decode cw = .ok i ↔ i.wellFormed = true ∧ encode i = cw := by
  refine ⟨encode_of_decode, ?_⟩
  rintro ⟨hwf, rfl⟩
  exact decode_encode hwf

/-! ## The rows of R71 -/

/-- A row whose mask fixes OPC and RSV selects the words whose ARG and DATA agree with what the mask leaves. -/
theorem and_mask_eq_iff {cw mask : Word64} {opc : BitVec 4} {a : BitVec 16} {d : Word32}
    (hrsv : fieldRsv mask = BitVec.allOnes 12) (hopc : fieldOpc mask = BitVec.allOnes 4)
    (ha : fieldArg cw &&& fieldArg mask = 0#16 ↔ fieldArg cw = a)
    (hd : fieldData cw &&& fieldData mask = 0#32 ↔ fieldData cw = d) :
    cw &&& mask = assembleWord opc 0#16 0#32 ↔ assembleWord opc a d = cw := by
  have hr : fieldRsv (cw &&& mask) = fieldRsv cw &&& fieldRsv mask := BitVec.extractLsb'_and
  have ho : fieldOpc (cw &&& mask) = fieldOpc cw &&& fieldOpc mask := BitVec.extractLsb'_and
  have hA : fieldArg (cw &&& mask) = fieldArg cw &&& fieldArg mask := BitVec.extractLsb'_and
  have hD : fieldData (cw &&& mask) = fieldData cw &&& fieldData mask := BitVec.extractLsb'_and
  rw [eq_comm, assembleWord_eq_iff, assembleWord_eq_iff, hr, ho, hA, hD, hrsv, hopc, BitVec.and_allOnes,
    BitVec.and_allOnes, ha, hd]

/-- The row of a command whose operand is ARG selects the words that decode to it. -/
theorem argRow_iff (cw : Word64) {mk : Nat → Instr} {opc : BitVec 4}
    (hwf : ∀ n, (mk n).wellFormed = decide (n < 2 ^ 16))
    (henc : ∀ n, encode (mk n) = assembleWord opc (BitVec.ofNat 16 n) 0#32) :
    cw &&& 0xFFFF0000FFFFFFFF#64 = assembleWord opc 0#16 0#32 ↔ decode cw = .ok (mk (fieldArg cw).toNat) := by
  have hfits : (mk (fieldArg cw).toNat).wellFormed = true := (hwf _).trans (decide_eq_true (fieldArg cw).isLt)
  have hfree : fieldArg 0xFFFF0000FFFFFFFF#64 = 0#16 := rfl
  have hfixed : fieldData 0xFFFF0000FFFFFFFF#64 = BitVec.allOnes 32 := rfl
  rw [and_mask_eq_iff (a := fieldArg cw) (d := 0#32) rfl rfl (by simp [hfree]) (by rw [hfixed, BitVec.and_allOnes]),
    decode_eq_ok_iff, henc, BitVec.ofNat_toNat, BitVec.setWidth_eq, and_iff_right hfits]

/-- The row of a command whose operand is DATA selects the words that decode to it. -/
theorem dataRow_iff (cw : Word64) {mk : Word32 → Instr} {opc : BitVec 4} (hwf : ∀ x, (mk x).wellFormed = true)
    (henc : ∀ x, encode (mk x) = assembleWord opc 0#16 x) :
    cw &&& 0xFFFFFFFF00000000#64 = assembleWord opc 0#16 0#32 ↔ decode cw = .ok (mk (fieldData cw)) := by
  have hfixed : fieldArg 0xFFFFFFFF00000000#64 = BitVec.allOnes 16 := rfl
  have hfree : fieldData 0xFFFFFFFF00000000#64 = 0#32 := rfl
  rw [and_mask_eq_iff (a := 0#16) (d := fieldData cw) rfl rfl (by rw [hfixed, BitVec.and_allOnes]) (by simp [hfree]),
    decode_eq_ok_iff, henc, and_iff_right (hwf _)]

/-- RDCFG's row fixes every bit. -/
theorem rdcfgRow_iff (cw : Word64) :
    cw &&& 0xFFFFFFFFFFFFFFFF#64 = 0x6000000000000000#64 ↔ decode cw = .ok .rdcfg := by
  have hand : cw &&& 0xFFFFFFFFFFFFFFFF#64 = cw := BitVec.and_allOnes
  have henc : encode .rdcfg = 0x6000000000000000#64 := rfl
  have hwf : Instr.rdcfg.wellFormed = true := rfl
  rw [hand, decode_eq_ok_iff, henc, and_iff_right hwf, eq_comm]

/-! ## Decode, encode and the rows: the statements -/

/-- Settles O1, by the fields of the assembled word. -/
theorem decodeOfEncode : Obligations.DecodeOfEncode := by
  unfold Obligations.DecodeOfEncode
  exact fun _ => decode_encode

/-- Settles O2: the decoder reads OPC and one operand field, and checks that every other bit is 0. -/
theorem encodeOfDecode : Obligations.EncodeOfDecode := by
  unfold Obligations.EncodeOfDecode
  exact fun _ _ => encode_of_decode

/-- Settles O3, by the three kinds of row. -/
theorem decodeFollowsMatchAndMask : Obligations.DecodeFollowsMatchAndMask := by
  unfold Obligations.DecodeFollowsMatchAndMask
  intro cw
  refine ⟨?_, ?_, ?_, ?_, ?_, rdcfgRow_iff cw⟩
  · exact argRow_iff cw (opc := 1#4) (fun _ => rfl) (fun _ => rfl)
  · exact dataRow_iff cw (opc := 2#4) (fun _ => rfl) (fun _ => rfl)
  · exact argRow_iff cw (opc := 3#4) (fun _ => rfl) (fun _ => rfl)
  · exact argRow_iff cw (opc := 4#4) (fun _ => rfl) (fun _ => rfl)
  · exact dataRow_iff cw (opc := 5#4) (fun _ => rfl) (fun _ => rfl)

/-! ## Illegal words -/

/-- A word that selects a row of the table decodes to that row's command. -/
theorem decode_of_selects {cw : Word64} {r : Row} (hr : r ∈ encodingTable) (h : r.selects cw = true) :
    ∃ i, decode cw = .ok i ∧ i.op = r.op := by
  obtain ⟨hinit, hadd, hmerge, hread, hclz, hrdcfg⟩ := decodeFollowsMatchAndMask cw
  have hsel : cw &&& r.mask = r.pattern := eq_of_beq h
  simp only [encodingTable, List.mem_cons, List.not_mem_nil, or_false] at hr
  rcases hr with rfl | rfl | rfl | rfl | rfl | rfl
  · exact ⟨_, hinit.mp hsel, rfl⟩
  · exact ⟨_, hadd.mp hsel, rfl⟩
  · exact ⟨_, hmerge.mp hsel, rfl⟩
  · exact ⟨_, hread.mp hsel, rfl⟩
  · exact ⟨_, hclz.mp hsel, rfl⟩
  · exact ⟨_, hrdcfg.mp hsel, rfl⟩

/-- The illegal words of R72: a nonzero RSV, an unassigned OPC, or a nonzero field that R61 says must be 0. -/
theorem decode_eq_error_iff (cw : Word64) : (∃ e, decode cw = .error e) ↔
    ((fieldOpc cw).toNat = 0 ∨ 7 ≤ (fieldOpc cw).toNat ∨ fieldRsv cw ≠ 0#12 ∨
      ((fieldOpc cw).toNat ∈ [1, 3, 4, 6] ∧ fieldData cw ≠ 0#32) ∨
      ((fieldOpc cw).toNat ∈ [2, 5, 6] ∧ fieldArg cw ≠ 0#16)) := by
  by_cases hrsv : fieldRsv cw = 0#12
  · rw [decode_of_rsv_zero hrsv]
    split
    case h_1 hopc | h_3 hopc | h_4 hopc => simp [withArg_eq_error, hopc, hrsv]
    case h_2 hopc | h_5 hopc => simp [withData_eq_error, hopc, hrsv]
    case h_6 hopc => simp [withNothing_eq_error, hopc, hrsv]
    case h_7 h1 h2 h3 h4 h5 h6 =>
      have hopc : (fieldOpc cw).toNat = 0 ∨ 7 ≤ (fieldOpc cw).toNat := by
        simp only [imp_false] at h1 h2 h3 h4 h5 h6
        omega
      exact iff_of_true ⟨_, rfl⟩ (hopc.imp_right .inl)
  · exact iff_of_true ⟨_, decode_of_rsv_nonzero hrsv⟩ (.inr (.inr (.inl hrsv)))

theorem Machine.runWord_of_decode_error {cw : Word64} {e : DecodeError} (h : decode cw = .error e) (s : Machine.State) :
    Machine.runWord cw s = Machine.raise none .illegal s := by
  simp only [Machine.runWord, h]

/-- Settles O4: the rows as O3 has them, the decoder's checks one by one, and `raise` as the answer. -/
theorem illegalWordsAreRejected : Obligations.IllegalWordsAreRejected := by
  unfold Obligations.IllegalWordsAreRejected
  refine ⟨fun _ _ => decode_of_selects, decode_eq_error_iff, fun cw s e h => ?_⟩
  rw [Machine.runWord_of_decode_error h, Machine.raise_eq]
  exact ⟨_, rfl, rfl, ⟨rfl, rfl, rfl⟩, rfl, rfl, rfl, rfl⟩

/-- Settles O6: the fields do not overlap, and an operand that fits is its field's number. -/
theorem encodeIsAssemblerTable : Obligations.EncodeIsAssemblerTable := by
  unfold Obligations.EncodeIsAssemblerTable
  refine ⟨fun n hn => ?_, fun x => ?_, rfl⟩
  · simp [encode, assembleWord_toNat, hn]
  · simp [encode, assembleWord_toNat]

end Sys2Proof

namespace Sys2Proof.Machine

/-! ## The response -/

/-- Settles O51: the codes one by one, and the pins by `rspOut`. -/
theorem statusCodes : Obligations.StatusCodes := by
  unfold Obligations.StatusCodes
  have hcodes : ∀ st : Status, statusOfCode (statusCode st) = some st := by
    intro st
    cases st <;> rfl
  refine ⟨rfl, rfl, rfl, rfl, rfl, rfl, hcodes, fun _ => ⟨rfl, rfl⟩, fun r => ?_, fun s e r h => ?_⟩
  · simp [readResponse, hcodes]
  · simp [rspValid, rspStatusPins, rspDataPins, h]

end Sys2Proof.Machine
end

section
/-! SUPPORT. 30_encoding.md R74: the words of a line, the number a word is, and the command word of a line. -/

namespace Sys2Proof.Machine

/-! ## Letter case -/

theorem isLower_iff {c : Char} : c.isLower = true ↔ 'a' ≤ c ∧ c ≤ 'z' := by
  simp [Char.isLower, Char.le_def]

theorem isDigit_iff {c : Char} : c.isDigit = true ↔ '0' ≤ c ∧ c ≤ '9' := by
  simp [Char.isDigit, Char.le_def]

/-- The model's capital is the library's: a to z become A to Z, every other character stays. -/
theorem upper_eq_toUpper (c : Char) : upper c = c.toUpper := by
  unfold upper
  split
  · next h => exact (Char.toUpper_eq_of_isLower (isLower_iff.mpr h)).symm
  · next h => exact (Char.toUpper_eq_of_not_isLower (mt isLower_iff.mp h)).symm

/-! ## Numbers -/

theorem not_decimal_of_isAlpha {c : Char} (h : c.isAlpha = true) : ¬('0' ≤ c ∧ c ≤ '9') := by
  rintro ⟨-, h9⟩
  rcases Bool.or_eq_true_iff.mp h with hupper | hlower
  · obtain ⟨hA, -⟩ : 'A' ≤ c ∧ c ≤ 'Z' := by simpa [Char.isUpper, Char.le_def] using hupper
    exact absurd (hA.trans h9) (by decide)
  · obtain ⟨ha, -⟩ : 'a' ≤ c ∧ c ≤ 'z' := isLower_iff.mp hlower
    exact absurd (ha.trans h9) (by decide)

/-- A letter is the same digit in either case. -/
theorem digitValue_toUpper (base : Nat) (c : Char) : digitValue base c.toUpper = digitValue base c := by
  cases hc : c.isAlpha with
  | true =>
    have hdec := not_decimal_of_isAlpha hc
    have hdec' := not_decimal_of_isAlpha (c.isAlpha_toUpper_eq_isAlpha.trans hc)
    simp only [digitValue, upper_eq_toUpper, Char.toUpper_toUpper_eq_toUpper, if_neg hdec, if_neg hdec']
  | false =>
    have hlower : ¬c.isLower := by simp_all [Char.isAlpha]
    rw [Char.toUpper_eq_of_not_isLower hlower]

/-- Hence a digit string is the same number in any letter case. -/
theorem readDigits_map_toUpper (base : Nat) (ds : List Char) (acc : Nat) :
    readDigits base (ds.map Char.toUpper) acc = readDigits base ds acc := by
  induction ds generalizing acc with
  | nil => rfl
  | cons c cs ih => simp only [List.map_cons, readDigits, digitValue_toUpper, ih]

theorem readDigits_append (base : Nat) (cs ds : List Char) (acc : Nat) :
    readDigits base (cs ++ ds) acc = (readDigits base cs acc).bind (readDigits base ds) := by
  induction cs generalizing acc with
  | nil => rfl
  | cons c cs ih =>
    simp only [List.cons_append, readDigits, ih, Option.bind_assoc]

/-- A digit of base 16 that is below the base is that digit of the base. -/
theorem digitValue_of_hex {base d : Nat} {c : Char} (h : digitValue 16 c = some d) (hd : d < base) :
    digitValue base c = some d := by
  obtain ⟨n, hraw, hn⟩ := Option.bind_eq_some_iff.mp h
  obtain ⟨-, hnd⟩ := Option.ite_none_right_eq_some.mp hn
  exact Option.bind_eq_some_iff.mpr ⟨n, hraw, by rw [hnd]; exact if_pos (Option.some.inj hnd ▸ hd)⟩

theorem digitValue_digitChar {base d : Nat} (hd : d < base) (hbase : base ≤ 16) :
    digitValue base d.digitChar = some d := by
  have hhex : ∀ k < 16, digitValue 16 k.digitChar = some k := by decide
  exact digitValue_of_hex (hhex d (hd.trans_le hbase)) hd

/-- The numeral of `n` reads as `n`: its last digit is `n % base`, and the digits before it are the numeral of
`n / base`. -/
theorem readDigits_toDigits {base : Nat} (h1 : 1 < base) (h16 : base ≤ 16) (n : Nat) :
    readDigits base (Nat.toDigits base n) 0 = some n := by
  induction n using Nat.strong_induction_on with
  | h n ih =>
    rcases Nat.lt_or_ge n base with hlt | hge
    · simp [Nat.toDigits_of_lt_base hlt, readDigits, digitValue_digitChar hlt h16]
    · have hdiv : n / base < n := Nat.div_lt_self (by omega) h1
      have hmod : n % base < base := Nat.mod_lt _ (by omega)
      rw [Nat.toDigits_of_base_le h1 hge, readDigits_append, ih _ hdiv]
      simp [readDigits, digitValue_digitChar hmod h16, Nat.div_add_mod']

theorem readDigits_replicate_zero {base : Nat} (hbase : 0 < base) (k : Nat) (ds : List Char) :
    readDigits base (List.replicate k '0' ++ ds) 0 = readDigits base ds 0 := by
  have hzero : digitValue base '0' = some 0 := by simp [digitValue, hbase]
  induction k with
  | zero => rfl
  | succ k ih => simp [List.replicate_succ, readDigits, hzero, ih]

/-- The base 10 and base 16 numerals, after any leading zeros. -/
theorem readDigits_numeral {base : Nat} (h1 : 1 < base) (h16 : base ≤ 16) (k n : Nat) :
    readDigits base (List.replicate k '0' ++ Nat.toDigits base n) 0 = some n := by
  rw [readDigits_replicate_zero (Nat.zero_lt_of_lt h1), readDigits_toDigits h1 h16]

/-- Digits only: no x stands second, so the number is decimal. -/
theorem readNumber_of_isDigit {cs : List Char} (hne : cs ≠ []) (h : ∀ c ∈ cs, c.isDigit = true) :
    readNumber cs = readDigits 10 cs 0 := by
  unfold readNumber
  split
  · exact absurd rfl hne
  · next x ds =>
    have hdigit : x.isDigit = true := h x (by simp)
    have hx : upper x ≠ 'X' := by
      intro hX
      have hletter : x.isAlpha = true := by
        rw [← Char.isUpper_toUpper_eq_isAlpha, ← upper_eq_toUpper, hX]
        rfl
      exact not_decimal_of_isAlpha hletter (isDigit_iff.mp hdigit)
    exact if_neg hx
  · rfl

/-- Behind 0x or 0X the digits are hexadecimal. -/
theorem readNumber_of_hex {x : Char} {ds : List Char} (hx : x = 'x' ∨ x = 'X') (hne : ds ≠ []) :
    readNumber ('0' :: x :: ds) = readDigits 16 ds 0 := by
  have hX : upper x = 'X' := by rcases hx with rfl | rfl <;> rfl
  simp only [readNumber, if_pos hX, if_neg hne]

/-- Behind 0x or 0X the base 16 numeral of `n`, its letters in any case, reads as `n`. -/
theorem readNumber_of_hex_numeral {k n : Nat} {x : Char} {ds : List Char} (hx : x = 'x' ∨ x = 'X')
    (hds : ds.map Char.toUpper = List.replicate k '0' ++ (Nat.toDigits 16 n).map Char.toUpper) :
    readNumber ('0' :: x :: ds) = some n := by
  have hcase : ds.map Char.toUpper = (List.replicate k '0' ++ Nat.toDigits 16 n).map Char.toUpper := by
    rw [hds, List.map_append, List.map_replicate]
    rfl
  have hne : ds ≠ [] := by
    rintro rfl
    simp [Nat.toDigits_ne_nil] at hds
  calc readNumber ('0' :: x :: ds) = readDigits 16 ds 0 := readNumber_of_hex hx hne
    _ = readDigits 16 (ds.map Char.toUpper) 0 := (readDigits_map_toUpper ..).symm
    _ = readDigits 16 (List.replicate k '0' ++ Nat.toDigits 16 n) 0 := by rw [hcase, readDigits_map_toUpper]
    _ = some n := readDigits_numeral (by decide) (by decide) k n

/-- Settles O52: the digits read back as the number, letter by letter in either case. -/
theorem numbersAreDecimalOrHex : Obligations.NumbersAreDecimalOrHex := by
  unfold Obligations.NumbersAreDecimalOrHex
  refine ⟨fun k n => ?_, fun n => ?_, fun k n x ds => readNumber_of_hex_numeral⟩
  · have hne : List.replicate k '0' ++ Nat.toDigits 10 n ≠ [] := by simp [Nat.toDigits_ne_nil]
    have hdigits : ∀ c ∈ List.replicate k '0' ++ Nat.toDigits 10 n, c.isDigit = true := by
      intro c hc
      rcases List.mem_append.mp hc with hzero | hnumeral
      · rw [List.eq_of_mem_replicate hzero]; rfl
      · exact Nat.isDigit_of_mem_toDigits (by decide) (by decide) hnumeral
    rw [readNumber_of_isDigit hne hdigits, readDigits_numeral (by decide) (by decide)]
  · exact readNumber_of_hex_numeral (k := 0) (.inl rfl) (by simp)

/-! ## The words of a line -/

/-- Everything from the first `;` on is left out. -/
theorem stripComment_append {t comment : List Char} (ht : ∀ c ∈ t, c ≠ ';') (hc : isComment comment) :
    stripComment (t ++ comment) = t := by
  induction t with
  | nil => rcases hc with rfl | ⟨u, rfl⟩ <;> rfl
  | cons c cs ih =>
    obtain ⟨hne, hcs⟩ := List.forall_mem_cons.mp ht
    simp only [List.cons_append, stripComment, if_neg hne, ih hcs]

/-- Blanks before a word are left out. -/
theorem splitWords_blanks {b : List Char} (hb : blanks b) (rest : List Char) :
    splitWords (b ++ rest) [] = splitWords rest [] := by
  induction b with
  | nil => rfl
  | cons c cs ih =>
    obtain ⟨hc, hcs⟩ := List.forall_mem_cons.mp hb
    simp only [List.cons_append, splitWords, if_pos hc, if_true, ih hcs]

/-- The characters of a word are gathered, last first. -/
theorem splitWords_gather {w : List Char} (hw : ∀ c ∈ w, c ≠ ' ' ∧ c ≠ '\t' ∧ c ≠ ';') (rest acc : List Char) :
    splitWords (w ++ rest) acc = splitWords rest (w.reverse ++ acc) := by
  induction w generalizing acc with
  | nil => rfl
  | cons c cs ih =>
    obtain ⟨⟨hspace, htab, -⟩, hcs⟩ := List.forall_mem_cons.mp hw
    simp [splitWords, hspace, htab, ih hcs]

/-- A blank ends the word before it. -/
theorem splitWords_word_blanks {w b : List Char} (hw : plainWord w) (hb : blanks b) (hne : b ≠ []) (rest : List Char) :
    splitWords (w ++ (b ++ rest)) [] = w :: splitWords rest [] := by
  obtain ⟨hwne, hchars⟩ := hw
  cases b with
  | nil => exact absurd rfl hne
  | cons c cs =>
    obtain ⟨hc, hcs⟩ := List.forall_mem_cons.mp hb
    rw [splitWords_gather hchars]
    simp [splitWords, hc, hwne, splitWords_blanks hcs]

theorem splitWords_end {acc : List Char} (h : acc ≠ []) : splitWords [] acc = [acc.reverse] := by
  cases acc with
  | nil => exact absurd rfl h
  | cons c cs => rfl

/-- The last word ends with the line, or with the blanks before its end. -/
theorem splitWords_last {w b : List Char} (hw : plainWord w) (hb : blanks b) : splitWords (w ++ b) [] = [w] := by
  cases b with
  | nil =>
    obtain ⟨hwne, hchars⟩ := hw
    rw [splitWords_gather hchars, splitWords_end (by simpa using hwne)]
    simp
  | cons c cs =>
    have hend := splitWords_word_blanks hw hb (List.cons_ne_nil c cs) []
    simpa [splitWords] using hend

theorem no_semicolon_of_blanks {b : List Char} (hb : blanks b) : ∀ c ∈ b, c ≠ ';' := by
  intro c hc
  rcases hb c hc with rfl | rfl <;> decide

theorem no_semicolon_of_plainWord {w : List Char} (hw : plainWord w) : ∀ c ∈ w, c ≠ ';' := fun c hc => (hw.2 c hc).2.2

theorem assembleLine_of_no_words {text : List Char} (h : splitWords (stripComment text) [] = []) :
    assembleLine text = .ok none := by
  simp only [assembleLine, parseLine, h]

/-- Settles O54: blanks and the comment fall away, and each word is gathered whole. -/
theorem lineIsMnemonicNumberComment : Obligations.LineIsMnemonicNumberComment := by
  unfold Obligations.LineIsMnemonicNumberComment
  refine ⟨upper_eq_toUpper, fun m b₀ b₂ comment hm hb₀ hb₂ hcomment => ?_, fun b₀ comment hb₀ hcomment => ?_⟩
  · have hm₀ := no_semicolon_of_plainWord hm
    have hn₀ := no_semicolon_of_blanks hb₀
    have hn₂ := no_semicolon_of_blanks hb₂
    refine ⟨?_, fun b₁ w hb₁ hne hw => ?_⟩
    · have hline : ∀ c ∈ b₀ ++ m ++ b₂, c ≠ ';' := by
        simp only [List.forall_mem_append]
        exact ⟨⟨hn₀, hm₀⟩, hn₂⟩
      rw [stripComment_append hline hcomment, List.append_assoc, splitWords_blanks hb₀, splitWords_last hm hb₂]
    · have hline : ∀ c ∈ b₀ ++ m ++ b₁ ++ w ++ b₂, c ≠ ';' := by
        simp only [List.forall_mem_append]
        exact ⟨⟨⟨⟨hn₀, hm₀⟩, no_semicolon_of_blanks hb₁⟩, no_semicolon_of_plainWord hw⟩, hn₂⟩
      rw [stripComment_append hline hcomment]
      simp only [List.append_assoc]
      rw [splitWords_blanks hb₀, splitWords_word_blanks hm hb₁ hne, splitWords_last hw hb₂]
  · apply assembleLine_of_no_words
    rw [stripComment_append (no_semicolon_of_blanks hb₀) hcomment, ← List.append_nil b₀, splitWords_blanks hb₀]
    rfl

/-! ## What a line says -/

/-- What a mnemonic that takes a number makes of it (the rows of R74 but RDCFG's). -/
def numberLine (name : List Char) : Option (Nat → Except AsmError Line) :=
  if name = ['I', 'N', 'I', 'T'] then some (fun n => .ok (.command (.init n)))
  else if name = ['A', 'D', 'D'] then some (dataOperand .add)
  else if name = ['M', 'E', 'R', 'G', 'E'] then some (fun n => .ok (.command (.merge n)))
  else if name = ['R', 'E', 'A', 'D'] then some (fun n => .ok (.command (.read n)))
  else if name = ['C', 'L', 'Z'] then some (dataOperand .clz)
  else if name = ['.', 'W', 'O', 'R', 'D'] then some (fun n => .ok (.word n))
  else none

/-- What a mnemonic that takes no number says: only RDCFG says anything. -/
def bareLine (name : List Char) (ws : List (List Char)) : Except AsmError (Option Line) :=
  if name = ['R', 'D', 'C', 'F', 'G'] then
    (if ws = [] then .ok (some (.command .rdcfg)) else .error .operandCount)
  else .error .unknownMnemonic

theorem eq_ok_of_map_some {α : Type} {r : Except AsmError α} {a : α} (h : r.map some = .ok (some a)) : r = .ok a := by
  cases r with
  | error e => cases h
  | ok b =>
    obtain rfl := Option.some.inj (Except.ok.inj h)
    rfl

theorem oneOperand_eq_ok {mk : Nat → Except AsmError Line} {ws : List (List Char)} {l : Line}
    (h : oneOperand mk ws = .ok (some l)) : ∃ w n, ws = [w] ∧ readNumber w = some n ∧ mk n = .ok l := by
  unfold oneOperand at h
  split at h
  · next w =>
    split at h
    · next n hn => exact ⟨w, n, rfl, hn, eq_ok_of_map_some h⟩
    · cases h
  · cases h

theorem bareLine_eq_ok {name : List Char} {ws : List (List Char)} {l : Line} (h : bareLine name ws = .ok (some l)) :
    name = ['R', 'D', 'C', 'F', 'G'] ∧ ws = [] ∧ l = .command .rdcfg := by
  unfold bareLine at h
  split_ifs at h with hname hws
  cases h
  exact ⟨hname, hws, rfl⟩

/-- The mnemonic, in capitals, says what the other words are for. -/
theorem parseLine_of_words {text m : List Char} {ws : List (List Char)}
    (h : splitWords (stripComment text) [] = m :: ws) :
    parseLine text = (numberLine (m.map upper)).elim (bareLine (m.map upper) ws) (fun mk => oneOperand mk ws) := by
  by_cases hname : m.map upper = ['R', 'D', 'C', 'F', 'G']
  · simp [parseLine, h, hname, numberLine, bareLine]
  · simp only [parseLine, h, numberLine, bareLine, if_neg hname]
    split_ifs <;> rfl

theorem parseLine_of_lineOf {text name : List Char} {n : Nat} {mk : Nat → Except AsmError Line} (h : LineOf text name n)
    (hmk : numberLine name = some mk) : parseLine text = (mk n).map some := by
  obtain ⟨m, w, hwords, rfl, hn⟩ := h
  rw [parseLine_of_words hwords, hmk]
  simp only [Option.elim_some, oneOperand, hn]

/-- The lines that say something: a number's row of R74, or RDCFG. -/
theorem parseLine_eq_ok {text : List Char} {l : Line} (h : parseLine text = .ok (some l)) :
    (∃ name n mk, LineOf text name n ∧ numberLine name = some mk ∧ mk n = .ok l) ∨
      ((∃ m, splitWords (stripComment text) [] = [m] ∧ m.map upper = ['R', 'D', 'C', 'F', 'G']) ∧
        l = .command .rdcfg) := by
  cases hwords : splitWords (stripComment text) [] with
  | nil => simp [parseLine, hwords] at h
  | cons m ws =>
    rw [parseLine_of_words hwords] at h
    cases hmk : numberLine (m.map upper) with
    | some mk =>
      rw [hmk] at h
      obtain ⟨w, n, rfl, hn, hl⟩ := oneOperand_eq_ok h
      exact .inl ⟨_, n, mk, ⟨m, w, hwords, rfl, hn⟩, hmk, hl⟩
    | none =>
      rw [hmk] at h
      obtain ⟨hname, rfl, hl⟩ := bareLine_eq_ok h
      exact .inr ⟨⟨m, rfl, hname⟩, hl⟩

theorem toNat_ofNat_of_lt {w n : Nat} (h : n < 2 ^ w) : (BitVec.ofNat w n).toNat = n := by
  rw [BitVec.toNat_ofNat, Nat.mod_eq_of_lt h]

theorem dataOperand_eq_ok {mk : Word32 → Instr} {n : Nat} {l : Line} (h : dataOperand mk n = .ok l) :
    ∃ x : Word32, x.toNat = n ∧ l = .command (mk x) := by
  unfold dataOperand at h
  split_ifs at h with hn
  cases h
  exact ⟨_, toNat_ofNat_of_lt hn, rfl⟩

/-- The six rows of R74 with a number, and the operand each makes of it. -/
theorem numberLine_cases {name : List Char} {n : Nat} {mk : Nat → Except AsmError Line} {l : Line}
    (hmk : numberLine name = some mk) (hl : mk n = .ok l) :
    (name = ['I', 'N', 'I', 'T'] ∧ l = .command (.init n)) ∨
      (name = ['A', 'D', 'D'] ∧ ∃ x : Word32, x.toNat = n ∧ l = .command (.add x)) ∨
      (name = ['M', 'E', 'R', 'G', 'E'] ∧ l = .command (.merge n)) ∨
      (name = ['R', 'E', 'A', 'D'] ∧ l = .command (.read n)) ∨
      (name = ['C', 'L', 'Z'] ∧ ∃ x : Word32, x.toNat = n ∧ l = .command (.clz x)) ∨
      (name = ['.', 'W', 'O', 'R', 'D'] ∧ l = .word n) := by
  unfold numberLine at hmk
  split_ifs at hmk with hinit hadd hmerge hread hclz hword <;> obtain rfl := Option.some.inj hmk
  · cases hl
    exact .inl ⟨hinit, rfl⟩
  · exact .inr (.inl ⟨hadd, dataOperand_eq_ok hl⟩)
  · cases hl
    exact .inr (.inr (.inl ⟨hmerge, rfl⟩))
  · cases hl
    exact .inr (.inr (.inr (.inl ⟨hread, rfl⟩)))
  · exact .inr (.inr (.inr (.inr (.inl ⟨hclz, dataOperand_eq_ok hl⟩))))
  · cases hl
    exact .inr (.inr (.inr (.inr (.inr ⟨hword, rfl⟩))))

/-! ## The word of a line -/

section
variable {i : Instr} {n : Nat} {cw : Word64}

theorem encodeLine_of_wellFormed (h : i.wellFormed = true) : encodeLine (.command i) = .ok (encode i) := if_pos h

theorem encodeLine_of_not_wellFormed (h : ¬i.wellFormed = true) : encodeLine (.command i) = .error .doesNotFit :=
  if_neg h

theorem encodeLine_word (h : n < 2 ^ 64) : encodeLine (.word n) = .ok (BitVec.ofNat 64 n) := if_pos h

theorem encodeLine_word_too_wide (h : ¬n < 2 ^ 64) : encodeLine (.word n) = .error .doesNotFit := if_neg h

/-- The word of a command decodes to it. -/
theorem decode_of_encodeLine (h : encodeLine (.command i) = .ok cw) : decode cw = .ok i := by
  by_cases hwf : i.wellFormed = true
  · rw [encodeLine_of_wellFormed hwf] at h
    cases h
    exact decode_encode hwf
  · rw [encodeLine_of_not_wellFormed hwf] at h
    cases h

theorem toNat_of_encodeLine (h : encodeLine (.word n) = .ok cw) : cw.toNat = n := by
  by_cases hn : n < 2 ^ 64
  · rw [encodeLine_word hn] at h
    cases h
    exact toNat_ofNat_of_lt hn
  · rw [encodeLine_word_too_wide hn] at h
    cases h

end

theorem assembleLine_of_parseLine {text : List Char} {l : Line} (h : parseLine text = .ok (some l)) :
    assembleLine text = (encodeLine l).map some := by
  simp only [assembleLine, h]

theorem assembleLine_eq_ok {text : List Char} {cw : Word64} (h : assembleLine text = .ok (some cw)) :
    ∃ l, parseLine text = .ok (some l) ∧ encodeLine l = .ok cw := by
  unfold assembleLine at h
  split at h
  · cases h
  · cases h
  · next l hl => exact ⟨l, hl, eq_ok_of_map_some h⟩

/-- A line's command assembles when its operand fits, and not otherwise. -/
theorem assemblesIf_command {text : List Char} {i : Instr} (h : parseLine text = .ok (some (.command i))) :
    AssemblesIf (i.wellFormed = true) text (fun cw => decode cw = .ok i) := by
  rw [AssemblesIf, assembleLine_of_parseLine h]
  refine ⟨fun hwf => ⟨encode i, ?_, decode_encode hwf⟩, fun hwf => ?_⟩
  · rw [encodeLine_of_wellFormed hwf]
    rfl
  · rw [encodeLine_of_not_wellFormed hwf]
    rfl

/-- A number that fits ARG is INIT's, MERGE's or READ's operand as it stands. -/
theorem assemblesIf_arg {text : List Char} {i : Instr} {n : Nat} (h : parseLine text = .ok (some (.command i)))
    (hwf : i.wellFormed = decide (n < 2 ^ 16)) : AssemblesIf (n < 2 ^ 16) text (fun cw => decode cw = .ok i) := by
  have hline := assemblesIf_command h
  rwa [hwf, decide_eq_true_iff] at hline

/-- A number that fits DATA is ADD's or CLZ's operand as it stands. -/
theorem assemblesIf_data {text : List Char} {mk : Word32 → Instr} {n : Nat}
    (h : parseLine text = (dataOperand mk n).map some) (hwf : ∀ x, (mk x).wellFormed = true) :
    AssemblesIf (n < 2 ^ 32) text (fun cw => ∃ x : Word32, x.toNat = n ∧ decode cw = .ok (mk x)) := by
  refine ⟨fun hn => ?_, fun hn => ?_⟩
  · rw [dataOperand, if_pos hn] at h
    obtain ⟨cw, hcw, hdec⟩ := (assemblesIf_command h).1 (hwf _)
    exact ⟨cw, hcw, _, toNat_ofNat_of_lt hn, hdec⟩
  · rw [dataOperand, if_neg hn] at h
    simp [assembleLine, h, Except.map]

theorem assemblesIf_word {text : List Char} {n : Nat} (h : parseLine text = .ok (some (.word n))) :
    AssemblesIf (n < 2 ^ 64) text (fun cw => cw.toNat = n) := by
  rw [AssemblesIf, assembleLine_of_parseLine h]
  refine ⟨fun hn => ⟨BitVec.ofNat 64 n, ?_, toNat_ofNat_of_lt hn⟩, fun hn => ?_⟩
  · rw [encodeLine_word hn]
    rfl
  · rw [encodeLine_word_too_wide hn]
    rfl

/-- Settles O7: the rows of R74 one by one, each way. -/
theorem assemblerNeverTruncates : Obligations.AssemblerNeverTruncates := by
  unfold Obligations.AssemblerNeverTruncates
  refine ⟨fun text n => ⟨fun h => ?_, fun h => ?_, fun h => ?_, fun h => ?_, fun h => ?_, fun h => ?_⟩,
    fun text m hwords hname => ?_, fun text cw h => ?_⟩
  · exact assemblesIf_arg (parseLine_of_lineOf h rfl) rfl
  · exact assemblesIf_data (parseLine_of_lineOf h rfl) fun _ => rfl
  · exact assemblesIf_arg (parseLine_of_lineOf h rfl) rfl
  · exact assemblesIf_arg (parseLine_of_lineOf h rfl) rfl
  · exact assemblesIf_data (parseLine_of_lineOf h rfl) fun _ => rfl
  · exact assemblesIf_word (parseLine_of_lineOf h rfl)
  · have hparse : parseLine text = .ok (some (.command .rdcfg)) := by
      rw [parseLine_of_words hwords, hname]
      rfl
    rw [assembleLine_of_parseLine hparse]
    rfl
  · obtain ⟨l, hparse, hcw⟩ := assembleLine_eq_ok h
    rcases parseLine_eq_ok hparse with ⟨name, n, mk, hline, hmk, hl⟩ | ⟨hline, rfl⟩
    · rcases numberLine_cases hmk hl with ⟨rfl, rfl⟩ | ⟨rfl, x, rfl, rfl⟩ | ⟨rfl, rfl⟩ | ⟨rfl, rfl⟩ |
        ⟨rfl, x, rfl, rfl⟩ | ⟨rfl, rfl⟩
      · exact .inl ⟨n, hline, decode_of_encodeLine hcw⟩
      · exact .inr (.inl ⟨x, hline, decode_of_encodeLine hcw⟩)
      · exact .inr (.inr (.inl ⟨n, hline, decode_of_encodeLine hcw⟩))
      · exact .inr (.inr (.inr (.inl ⟨n, hline, decode_of_encodeLine hcw⟩)))
      · exact .inr (.inr (.inr (.inr (.inl ⟨x, hline, decode_of_encodeLine hcw⟩))))
      · obtain rfl := toNat_of_encodeLine hcw
        exact .inr (.inr (.inr (.inr (.inr (.inr hline)))))
    · exact .inr (.inr (.inr (.inr (.inr (.inl ⟨hline, decode_of_encodeLine hcw⟩)))))

end Sys2Proof.Machine
end

section
/-! SUPPORT. 40_construction.md R81, R83, R84: the words of INIT and RDCFG, what INIT constructs and the bits of the
configuration word. -/

namespace Sys2Proof.Machine

/-! ## The words of one opcode -/

/-- The words of an opcode whose decoding, once RSV is 0, is that of a command with its operand in ARG (30_encoding.md
R61, R72). -/
theorem wordsOf_argOnly {opc : BitVec 4} {mk : Nat → Instr}
    (hdec : ∀ cw, fieldRsv cw = 0#12 → fieldOpc cw = opc → decode cw = withArg mk cw) :
    WordsOf opc argOnly (fun cw => mk (cw.extractLsb' 32 16).toNat) := by
  intro cw hopc
  constructor
  · rintro ⟨hrsv, hdata⟩
    exact (hdec cw hrsv hopc).trans (withArg_eq_ok.mpr ⟨hdata, rfl⟩)
  · intro hillegal
    by_cases hrsv : fieldRsv cw = 0#12
    · rw [hdec cw hrsv hopc]
      exact withArg_eq_error.mpr fun hdata => hillegal ⟨hrsv, hdata⟩
    · exact ⟨_, decode_of_rsv_nonzero hrsv⟩

theorem wordsOf_init : WordsOf 1#4 argOnly (fun cw => .init (cw.extractLsb' 32 16).toNat) :=
  wordsOf_argOnly fun cw hrsv hopc => by rw [decode_of_rsv_zero hrsv, hopc]; rfl

/-- A word of OPC 6 other than RDCFG's differs from it in RSV, ARG or DATA, which R72 rejects. -/
theorem wordsOf_rdcfg : WordsOf 6#4 (fun cw => cw = 0x6000000000000000#64) (fun _ => .rdcfg) := by
  intro cw hopc
  have hopc6 : fieldOpc cw = 6#4 := hopc
  constructor
  · rintro rfl
    exact decode_encode (i := .rdcfg) rfl
  · intro hne
    refine (decode_eq_error_iff cw).mpr (by_contra fun hlegal => hne ?_)
    obtain ⟨hrsv, hdata, harg⟩ : fieldRsv cw = 0#12 ∧ fieldData cw = 0#32 ∧ fieldArg cw = 0#16 := by
      simpa [hopc6] using hlegal
    exact (assembleWord_eq_iff.mpr ⟨hrsv, hopc6, harg, hdata⟩).symm

/-! ## INIT -/

/-- INIT with an operand in range constructs the counter. -/
theorem exec_init_of_legal {p : Nat} (hlo : 4 ≤ p) (hhi : p ≤ 16) (s : State) :
    exec (.init p) s = respond (some .init) .ok 0#32
      { s with prec := BitVec.ofNat 5 p, cfgValid := true, reg := s.reg.clearBelow (2 ^ p) } := by
  rcases execInit_cases p s with ⟨hout, -⟩ | ⟨-, hok⟩
  · omega
  · exact hok

/-- INIT with an operand out of range raises INVALID_PRECISION. -/
theorem exec_init_of_illegal {p : Nat} (hout : p < 4 ∨ 16 < p) (s : State) :
    exec (.init p) s = raise (some .init) .invalidPrecision s := by
  rcases execInit_cases p s with ⟨-, hraise⟩ | ⟨hin, -⟩
  · exact hraise
  · omega

/-- Settles O30: `clearBelow` writes 0 below 2^p and nothing else, PREC's 5 bits hold every legal p, and out of range
INIT is a `raise`. -/
theorem initConstructsCounter : Obligations.InitConstructsCounter := by
  unfold Obligations.InitConstructsCounter
  refine ⟨wordsOf_init, fun p s hlo hhi => ?_, fun p s hout => ?_⟩
  · have hprec : (BitVec.ofNat 5 p).toNat = p := toNat_ofNat_prec hhi
    rw [exec_init_of_legal hlo hhi, respond_eq]
    exact ⟨_, rfl, rfl, rfl, hprec, congrArg (2 ^ ·) hprec, Memory.read_clearBelow s.reg (2 ^ p), rfl, rfl, rfl, rfl⟩
  · rw [exec_init_of_illegal hout, raise_eq]
    exact ⟨_, rfl, rfl, ⟨rfl, rfl, rfl⟩, rfl, rfl, rfl, rfl⟩

/-! ## RDCFG -/

/-- The bits of CFGW (10_state.md R25). -/
theorem getLsbD_cfgWord (s : State) (k : Nat) :
    (cfgWord s).getLsbD k = if k < 5 then s.prec.getLsbD k else decide (k = 8) && s.cfgValid := by
  unfold cfgWord
  simp only [BitVec.getLsbD_setWidth, BitVec.getLsbD_append, BitVec.getLsbD_zero, BitVec.getLsbD_ofBool]
  by_cases hprec : k < 5
  · have hwidth : k < 32 := by omega
    simp [hprec, hwidth]
  · by_cases hvalid : k = 8
    · simp [hvalid]
    · have hgap : ¬k - 5 < 3 → k - 5 - 3 ≠ 0 := by omega
      simp +contextual [hprec, hvalid, hgap]

/-- Settles O31: `execRdcfg` answers CFGW and keeps the rest; the fields are read off CFGW bit by bit. -/
theorem rdcfgReadsConfiguration : Obligations.RdcfgReadsConfiguration := by
  unfold Obligations.RdcfgReadsConfiguration
  refine ⟨wordsOf_rdcfg, fun s => ⟨_, cfgWord s, rfl, rfl, ?prec, ?gap, ?valid, ?high, ⟨rfl, rfl, rfl⟩,
    rfl, rfl, rfl, rfl⟩⟩
  case prec =>
    ext k hk
    simp [getLsbD_cfgWord, hk]
  case gap =>
    ext k hk
    have hvalid : 5 + k ≠ 8 := by omega
    simp [getLsbD_cfgWord, hvalid]
  case valid => exact (getLsbD_cfgWord s 8).trans (by simp)
  case high =>
    ext k hk
    have hvalid : 9 + k ≠ 8 := by omega
    have hprec : ¬9 + k < 5 := by omega
    simp [getLsbD_cfgWord, hvalid, hprec]

end Sys2Proof.Machine
end

section
/-! SUPPORT. 41_add.md R91 to R95: the words of ADD, its index, the rank as the position of the leading 1, the
max-update, and ADD's whole effect. -/

namespace Sys2Proof.Machine

/-! ## The words of ADD -/

/-- The words of an opcode whose decoding, once RSV is 0, is that of a command with its operand in DATA (30_encoding.md
R61, R72). -/
theorem wordsOf_dataOnly {opc : BitVec 4} {mk : Word32 → Instr}
    (hdec : ∀ cw, fieldRsv cw = 0#12 → fieldOpc cw = opc → decode cw = withData mk cw) :
    WordsOf opc dataOnly (fun cw => mk (cw.extractLsb' 0 32)) := by
  intro cw hopc
  constructor
  · rintro ⟨hrsv, harg⟩
    exact (hdec cw hrsv hopc).trans (withData_eq_ok.mpr ⟨harg, rfl⟩)
  · intro hillegal
    by_cases hrsv : fieldRsv cw = 0#12
    · rw [hdec cw hrsv hopc]
      exact withData_eq_error.mpr fun harg => hillegal ⟨hrsv, harg⟩
    · exact ⟨_, decode_of_rsv_nonzero hrsv⟩

theorem wordsOf_add : WordsOf 2#4 dataOnly (fun cw => .add (cw.extractLsb' 0 32)) :=
  wordsOf_dataOnly fun cw hrsv hopc => by rw [decode_of_rsv_zero hrsv, hopc]; rfl

/-! ## The leading 1 -/

theorem clz32_le (x : Word32) : clz32 x ≤ 32 := clzScan_le x 32

theorem clz32_eq_32_iff (x : Word32) : clz32 x = 32 ↔ x = 0#32 := by
  have hbound : 32 ≤ clz32 x ↔ x.toNat < 1 := le_clz32_iff x 32 (Nat.le_refl 32)
  have hle := clz32_le x
  rw [← BitVec.toNat_inj, BitVec.toNat_zero]
  omega

/-- A 1 ends the count. -/
theorem clz32_le_of_getLsbD {x : Word32} {k : Nat} (hk : x.getLsbD k = true) : clz32 x ≤ 31 - k := by
  have hlt : k < 32 := BitVec.lt_of_getLsbD hk
  by_contra hgt
  have hzero := (le_clzScan_iff x 32 (32 - k) (by omega)).mp (by unfold clz32 at hgt; omega) k (by omega) hlt
  simp [hk] at hzero

/-- The count is the distance of the most significant 1 from bit 31 (42_clz.md R100). -/
theorem clz32_of_leadingOne {x : Word32} {k : Nat} (hk : x.getLsbD k = true)
    (hzeros : ∀ b, k < b → b < 32 → x.getLsbD b = false) : clz32 x = 31 - k := by
  refine Nat.le_antisymm (clz32_le_of_getLsbD hk) ?_
  refine (le_clzScan_iff x 32 (31 - k) (by omega)).mpr fun b hb => hzeros b ?_
  have hlt : k < 32 := BitVec.lt_of_getLsbD hk
  omega

/-- A shift right brings in as many zeros, up to the width. -/
theorem clz32_ushiftRight (x : Word32) (n : Nat) : clz32 (x >>> n) = min 32 (clz32 x + n) := by
  refine eq_of_forall_le_iff fun m => ?_
  rw [le_min_iff]
  by_cases hm : m ≤ 32
  · have hdiv : m ≤ clz32 (x >>> n) ↔ x.toNat < 2 ^ (32 - m + n) := by
      rw [le_clz32_iff _ _ hm, BitVec.toNat_ushiftRight, Nat.shiftRight_eq_div_pow,
        Nat.div_lt_iff_lt_mul (Nat.two_pow_pos n), ← Nat.pow_add]
    rcases Nat.le_total m n with hmn | hnm
    · have hfits : x.toNat < 2 ^ (32 - m + n) :=
        x.isLt.trans_le (Nat.pow_le_pow_right (by decide) (by omega))
      exact iff_of_true (hdiv.mpr hfits) ⟨hm, by omega⟩
    · have hrest : m - n ≤ clz32 x ↔ x.toNat < 2 ^ (32 - (m - n)) := le_clz32_iff x (m - n) (by omega)
      rw [hdiv, show 32 - m + n = 32 - (m - n) by omega, ← hrest, Nat.sub_le_iff_le_add, and_iff_right hm]
  · have hle := clz32_le (x >>> n)
    exact iff_of_false (by omega) fun h => hm h.1

/-! ## The rank -/

theorem rank_le {p : Nat} (hp : p ≤ 32) (h : Word32) : rank p h ≤ 33 - p := by
  have hle := clz32_le (rankPart p h)
  unfold rank
  omega

/-- A rank fits a register, so narrowing it loses nothing. -/
theorem toNat_ofNat_rank {p : Nat} (hp : p ≤ 32) (h : Word32) : (BitVec.ofNat 8 (rank p h)).toNat = rank p h := by
  have hle := rank_le hp h
  exact toNat_ofNat_of_lt (by omega)

theorem rank_eq_max_iff {p : Nat} (hp : p ≤ 32) (h : Word32) : rank p h = 33 - p ↔ rankPart p h = 0#32 := by
  have hprec := prec_le_clz32_rankPart p hp h
  rw [← clz32_eq_32_iff]
  unfold rank
  omega

/-- The rank counts from bit 31 - PREC to the most significant 1 of the rank part. -/
theorem rank_of_leadingOne {p : Nat} (hp : p ≤ 32) {h : Word32} {k : Nat} (hk : (rankPart p h).getLsbD k = true)
    (hzeros : ∀ b, k < b → b < 32 → (rankPart p h).getLsbD b = false) :
    k ≤ 31 - p ∧ rank p h = 31 - p - k + 1 := by
  have hclz := clz32_of_leadingOne hk hzeros
  have hprec := prec_le_clz32_rankPart p hp h
  have hlt : k < 32 := BitVec.lt_of_getLsbD hk
  unfold rank
  omega

/-- Settles O34: the rank part has at least PREC leading zeros, 32 of them when it is 0 and otherwise those before its
leading 1. -/
theorem rankIsLeadingOnePosition : Obligations.RankIsLeadingOnePosition := by
  unfold Obligations.RankIsLeadingOnePosition
  intro p h hlo hhi
  have hp : p ≤ 32 := by omega
  have hprec := prec_le_clz32_rankPart p hp h
  have hmax := rank_le hp h
  have hdef : rank p h = clz32 (rankPart p h) - p + 1 := rfl
  exact ⟨rankPart_toNat p hp h, by omega, hprec, by omega, hmax, by omega, rank_eq_max_iff hp h,
    fun k _ hk hzeros => rank_of_leadingOne hp hk hzeros⟩

/-! ## The rank by a sentinel -/

/-- The hash shifted up by PREC, with a 1 just below it (41_add.md R95). -/
def withSentinel (p : Nat) (h : Word32) : Word32 := (h <<< p) ||| (1#32 <<< (p - 1))

theorem getLsbD_maskOf (p b : Nat) : (maskOf p).getLsbD b = decide (p + b < 32) :=
  (BitVec.getLsbD_ushiftRight _ p b).trans BitVec.getLsbD_allOnes

/-- Shifted down again it is the rank part: the sentinel falls out. -/
theorem withSentinel_ushiftRight {p : Nat} (hpos : 1 ≤ p) (h : Word32) : withSentinel p h >>> p = rankPart p h := by
  refine BitVec.eq_of_getLsbD_eq fun b _ => ?_
  have habove : p + b - (p - 1) ≠ 0 := by omega
  simp [withSentinel, rankPart, getLsbD_maskOf, habove, Bool.and_comm]

theorem getLsbD_withSentinel {p : Nat} (hpos : 1 ≤ p) (hp : p ≤ 32) (h : Word32) :
    (withSentinel p h).getLsbD (p - 1) = true := by
  have hlt : p - 1 < 32 := by omega
  simp [withSentinel, hlt]

/-- Settles O37: the sentinel ends the count before the zeros shifted in from below, so shifting down by PREC adds
exactly PREC zeros. -/
theorem rankBySentinel : Obligations.RankBySentinel := by
  unfold Obligations.RankBySentinel
  intro p h hlo hhi
  have hstop : clz32 (withSentinel p h) ≤ 31 - (p - 1) :=
    clz32_le_of_getLsbD (getLsbD_withSentinel (by omega) (by omega) h)
  have hcount : clz32 (rankPart p h) = clz32 (withSentinel p h) + p := by
    rw [← withSentinel_ushiftRight (by omega), clz32_ushiftRight]
    omega
  show clz32 (rankPart p h) - p + 1 = clz32 (withSentinel p h) + 1
  omega

/-! ## The max-update -/

section
variable {m : Memory} {i : Nat}

/-- The max-update as numbers (41_add.md R93). -/
theorem Memory.toNat_read_maxUpdate (hm : m.wf) (v : Byte) (a : Nat) :
    ((m.maxUpdate i v).read a).toNat = if a = i then max (m.read i).toNat v.toNat else (m.read a).toNat := by
  rw [Memory.read_maxUpdate hm, apply_ite BitVec.toNat, umax_toNat]
  exact if_congr eq_comm rfl rfl

/-- A value that does not exceed the register writes back what is there. -/
theorem Memory.maxUpdate_of_le (hm : m.wf) (hi : i < Config.regPhys) {v : Byte} (hv : v.toNat ≤ (m.read i).toNat) :
    m.maxUpdate i v = m := by
  refine Memory.ext_read (Memory.wf_maxUpdate hm hi v) hm fun a => BitVec.eq_of_toNat_eq ?_
  rw [Memory.toNat_read_maxUpdate hm]
  split
  · next ha => rw [ha, max_eq_left hv]
  · rfl

theorem Memory.maxUpdate_idempotent (hm : m.wf) (hi : i < Config.regPhys) (v : Byte) :
    (m.maxUpdate i v).maxUpdate i v = m.maxUpdate i v := by
  refine Memory.maxUpdate_of_le (Memory.wf_maxUpdate hm hi v) hi ?_
  rw [Memory.toNat_read_maxUpdate hm, if_pos rfl]
  exact le_max_right _ _

end

/-- Settles O35: a write of the maximum, read back. -/
theorem maxUpdateNeverLowers : Obligations.MaxUpdateNeverLowers := by
  unfold Obligations.MaxUpdateNeverLowers
  exact fun m i v hm hi => ⟨Memory.toNat_read_maxUpdate hm v, Memory.maxUpdate_of_le hm hi⟩

/-! ## ADD -/

/-- The file after a successful ADD (41_add.md R94). -/
def addedReg (h : Word32) (s : State) : Memory :=
  s.reg.maxUpdate (hashIndex s.prec.toNat h) (BitVec.ofNat 8 (rank s.prec.toNat h))

theorem exec_add_of_configured {s : State} (hcfg : s.cfgValid = true) (h : Word32) :
    exec (.add h) s = respond (some .add) .ok 0#32 { s with reg := addedReg h s } :=
  whenConfigured_true _ hcfg

theorem exec_add_of_unconfigured {s : State} (hcfg : s.cfgValid = false) (h : Word32) :
    exec (.add h) s = raise (some .add) .notConfigured s :=
  whenConfigured_false _ hcfg

/-- The file ADD leaves: only the register the index names changes. -/
theorem toNat_read_addedReg {s : State} (hreg : s.reg.wf) (h : Word32) (a : Nat) :
    ((addedReg h s).read a).toNat =
      if a = hashIndex s.prec.toNat h then max (s.reg.read a).toNat (rank s.prec.toNat h)
      else (s.reg.read a).toNat := by
  have hp : s.prec.toNat ≤ 32 := by omega
  rw [addedReg, Memory.toNat_read_maxUpdate hreg, toNat_ofNat_rank hp]
  split
  · next ha => rw [ha]
  · rfl

/-- Settles O32: the words by the decoder, the two outcomes by the configuration check; the rank loses nothing in the
8 bits of a register. -/
theorem addMaxUpdatesIndexedRegister : Obligations.AddMaxUpdatesIndexedRegister := by
  unfold Obligations.AddMaxUpdatesIndexedRegister
  refine ⟨wordsOf_add, fun h s hcfg hreg => ?_, fun h s hcfg => ?_⟩
  · rw [exec_add_of_configured hcfg, respond_eq]
    exact ⟨_, rfl, rfl, toNat_read_addedReg hreg h, rfl, rfl, rfl, rfl, rfl, rfl⟩
  · rw [exec_add_of_unconfigured hcfg, raise_eq]
    exact ⟨_, rfl, rfl, ⟨rfl, rfl, rfl⟩, rfl, rfl, rfl, rfl⟩

theorem hashIndex_lt {p : Nat} (hp : p ≤ 32) (h : Word32) : hashIndex p h < 2 ^ p := by
  rw [hashIndex_eq, Nat.div_lt_iff_lt_mul (Nat.two_pow_pos _), ← Nat.pow_add, Nat.add_sub_cancel' hp]
  exact h.isLt

/-- The index is the number the top PREC bits are. -/
theorem hashIndex_eq_extractLsb' {p : Nat} (hp : p ≤ 32) (h : Word32) :
    hashIndex p h = (h.extractLsb' (32 - p) p).toNat := by
  have hlt := hashIndex_lt hp h
  rw [hashIndex_eq] at hlt ⊢
  rw [BitVec.extractLsb'_toNat, Nat.shiftRight_eq_div_pow, Nat.mod_eq_of_lt hlt]

/-- Settles O33: h is below 2^32, so its top PREC bits are below 2^PREC; a write leaves the other entries alone. -/
theorem addIndexBelowM : Obligations.AddIndexBelowM := by
  unfold Obligations.AddIndexBelowM
  refine ⟨fun p h _ hhi => ?_, fun h s t hexec a ha => ?_⟩
  · have hp : p ≤ 32 := by omega
    exact ⟨hashIndex_eq_extractLsb' hp h, hashIndex_lt hp h⟩
  · cases hcfg : s.cfgValid with
    | false =>
      obtain rfl := Host.Outcome.next.inj ((exec_add_of_unconfigured hcfg h).symm.trans hexec)
      rfl
    | true =>
      obtain rfl := Host.Outcome.next.inj ((exec_add_of_configured hcfg h).symm.trans hexec)
      exact Memory.read_write_other s.reg _ (Ne.symm ha)

theorem counterOf_of_exec_add {h : Word32} {s t : State} (hcfg : s.cfgValid = true)
    (hexec : exec (.add h) s = .next t) : counterOf t = ⟨s.cfgValid, s.prec, addedReg h s⟩ := by
  obtain rfl := Host.Outcome.next.inj ((exec_add_of_configured hcfg h).symm.trans hexec)
  rfl

/-- Settles O36: the second ADD max-updates the same register with the same rank. -/
theorem addIsIdempotent : Obligations.AddIsIdempotent := by
  unfold Obligations.AddIsIdempotent
  intro h s t u hinv hcfg hfirst hsecond
  have hindex := hashIndex_lt_regPhys (prec_le_of_inv hinv) h
  obtain ⟨hreg, -, -, -⟩ := hinv
  have hcounter := counterOf_of_exec_add hcfg hfirst
  obtain ⟨hcv, hpr, hrg⟩ := counterOf_eq_iff.mp hcounter
  have hkept : addedReg h t = addedReg h s := by
    rw [addedReg, hpr, hrg]
    exact Memory.maxUpdate_idempotent hreg hindex _
  calc counterOf u = ⟨t.cfgValid, t.prec, addedReg h t⟩ := counterOf_of_exec_add (hcv.trans hcfg) hsecond
    _ = ⟨s.cfgValid, s.prec, addedReg h s⟩ := by rw [hcv, hpr, hkept]
    _ = counterOf t := hcounter.symm

end Sys2Proof.Machine
end

section
/-! SUPPORT. 42_clz.md R100, R102, R103: the laws of clz32, the words of CLZ and what CLZ answers. -/

namespace Sys2Proof.Machine

/-! ## The laws of clz32 -/

theorem clz32_lt_32_iff (x : Word32) : clz32 x < 32 ↔ x ≠ 0#32 := by
  rw [ne_eq, ← clz32_eq_32_iff]
  have hle := clz32_le x
  omega

/-- x lies below the power of two its count names. -/
theorem toNat_lt_two_pow_sub_clz32 (x : Word32) : x.toNat < 2 ^ (32 - clz32 x) :=
  (le_clz32_iff x _ (clz32_le x)).mp le_rfl

/-- One zero more would be one too many, so x reaches the power of two below. -/
theorem two_pow_sub_clz32_le_toNat {x : Word32} (hx : x ≠ 0#32) : 2 ^ (31 - clz32 x) ≤ x.toNat := by
  have hlt : clz32 x < 32 := (clz32_lt_32_iff x).mpr hx
  have hmore : ¬x.toNat < 2 ^ (32 - (clz32 x + 1)) := fun h =>
    Nat.not_succ_le_self _ ((le_clz32_iff x (clz32 x + 1) hlt).mpr h)
  rw [show 31 - clz32 x = 32 - (clz32 x + 1) by omega]
  exact Nat.le_of_not_lt hmore

/-- A shift left by leading zeros alone loses no 1. -/
theorem shiftLeft_ushiftRight_of_le_clz32 {x : Word32} {n : Nat} (hn : n ≤ clz32 x) : x <<< n >>> n = x := by
  have hn32 : n ≤ 32 := hn.trans (clz32_le x)
  have hfits : x.toNat * 2 ^ n < 2 ^ 32 :=
    calc x.toNat * 2 ^ n < 2 ^ (32 - n) * 2 ^ n :=
          Nat.mul_lt_mul_of_pos_right ((le_clz32_iff x n hn32).mp hn) (Nat.two_pow_pos n)
      _ = 2 ^ 32 := by rw [← Nat.pow_add, Nat.sub_add_cancel hn32]
  refine BitVec.eq_of_toNat_eq ?_
  rw [BitVec.toNat_ushiftRight, BitVec.toNat_shiftLeft, Nat.shiftLeft_eq, Nat.mod_eq_of_lt hfits,
    Nat.shiftRight_eq_div_pow, Nat.mul_div_cancel _ (Nat.two_pow_pos n)]

/-- A shift left by leading zeros uses them up: shifting back down would bring them in again. -/
theorem clz32_shiftLeft {x : Word32} {n : Nat} (hx : x ≠ 0#32) (hn : n ≤ clz32 x) :
    clz32 (x <<< n) = clz32 x - n := by
  have hlt : clz32 x < 32 := (clz32_lt_32_iff x).mpr hx
  have hback : clz32 x = min 32 (clz32 (x <<< n) + n) := by
    rw [← clz32_ushiftRight, shiftLeft_ushiftRight_of_le_clz32 hn]
  omega

theorem clz32_antitone {x y : Word32} (hxy : x.toNat ≤ y.toNat) : clz32 y ≤ clz32 x :=
  (le_clz32_iff x _ (clz32_le y)).mpr (hxy.trans_lt (toNat_lt_two_pow_sub_clz32 y))

/-- Settles O39: the scan of 32 bits counts at most 32, all of them exactly at 0, and otherwise those above the
leading 1. -/
theorem clzCountsLeadingZeros : Obligations.ClzCountsLeadingZeros := by
  unfold Obligations.ClzCountsLeadingZeros
  exact fun x => ⟨clz32_le x, (clz32_eq_32_iff x).mpr, fun _ _ => clz32_of_leadingOne⟩

/-- Settles O40: a count of at least n says that x is below 2^(32 - n), which gives the bounds, the top zeros and
monotonicity; the two shifts follow from the count of x >>> n. -/
theorem clzLaws : Obligations.ClzLaws := by
  unfold Obligations.ClzLaws
  refine ⟨clz32_eq_32_iff, fun x hx => ⟨two_pow_sub_clz32_le_toNat hx, toNat_lt_two_pow_sub_clz32 x⟩,
    fun _ _ => clz32_shiftLeft, fun x n hn => (le_clz32_iff x n hn).mpr, ⟨fun x hx => ?_, ?_⟩,
    fun _ _ => clz32_antitone⟩
  · have hlt : clz32 x < 32 := (clz32_lt_32_iff x).mpr hx
    rw [clz32_ushiftRight]
    omega
  · exact (clz32_eq_32_iff _).mpr BitVec.zero_ushiftRight

/-! ## CLZ -/

theorem wordsOf_clz : WordsOf 5#4 dataOnly (fun cw => .clz (cw.extractLsb' 0 32)) :=
  wordsOf_dataOnly fun cw hrsv hopc => by rw [decode_of_rsv_zero hrsv, hopc]; rfl

/-- A count fits the response's data, so narrowing it loses nothing. -/
theorem toNat_ofNat_clz32 (x : Word32) : (BitVec.ofNat 32 (clz32 x)).toNat = clz32 x := by
  have hle := clz32_le x
  exact toNat_ofNat_of_lt (by omega)

theorem exec_clz (x : Word32) (s : State) :
    exec (.clz x) s = respond (some .clz) .ok (BitVec.ofNat 32 (clz32 x)) s := rfl

/-- Settles O41: the words by the decoder; CLZ is one response, which holds the count whole and changes nothing
else. -/
theorem clzCommandAnswersCount : Obligations.ClzCommandAnswersCount := by
  unfold Obligations.ClzCommandAnswersCount
  refine ⟨wordsOf_clz, fun x s => ?_⟩
  have hdata := toNat_ofNat_clz32 x
  rw [exec_clz, respond_eq]
  exact ⟨_, _, rfl, rfl, hdata, hdata.trans_le (clz32_le x), ⟨rfl, rfl, rfl⟩, rfl, rfl, rfl, rfl⟩

end Sys2Proof.Machine
end

section
/-! SUPPORT. 43_merge.md R110 to R113: the words of MERGE, what MERGE answers, the order of its max-updates and its
laws. -/

namespace Sys2Proof.Machine

/-! ## The merge source -/

/-- Settles O29: a command's next state carries the source it started from, and so does every branch of an edge after
the host has put its array there. -/
theorem sourceNeverWritten : Obligations.SourceNeverWritten := by
  unfold Obligations.SourceNeverWritten
  refine ⟨fun i s t hexec => ?_, fun s t hstep => ?_⟩
  · obtain ⟨st, d, cv, pr, rg, hshape, -⟩ := exec_shape i s
    obtain rfl := Host.Outcome.next.inj (hshape.symm.trans hexec)
    rfl
  · rcases step_cases hstep with ⟨-, -, rfl⟩ | ⟨-, ⟨f, -, -, rfl⟩ | ⟨f, -, -, rfl⟩ | ⟨hidle, -, hrun⟩ | ⟨-, -, rfl⟩⟩
    · rfl
    · rfl
    · rfl
    · exact (runWord_src_history (s := pastEdge s (currentEdge s)) hidle hrun).1
    · rfl

/-! ## MERGE's loop -/

theorem umax_right_comm (a b c : Byte) : umax (umax a b) c = umax (umax a c) b := by
  refine BitVec.eq_of_toNat_eq ?_
  simp only [umax_toNat]
  exact max_right_comm _ _ _

theorem umax_umax_self (a b : Byte) : umax (umax a b) b = umax a b := by
  refine BitVec.eq_of_toNat_eq ?_
  simp only [umax_toNat]
  exact max_eq_left (le_max_right _ _)

/-- Max-updates of `m` with the source's entries at the listed indices, in that order (43_merge.md R111). -/
def Memory.maxUpdatesAt (m src : Memory) (order : List Nat) : Memory :=
  order.foldl (fun r i => r.maxUpdate i (src.read i)) m

theorem Memory.maxUpdatesAt_cons (m src : Memory) (i : Nat) (order : List Nat) :
    m.maxUpdatesAt src (i :: order) = (m.maxUpdate i (src.read i)).maxUpdatesAt src order := rfl

section
variable {m : Memory}

theorem Memory.wf_maxUpdatesAt (hm : m.wf) (src : Memory) {order : List Nat} (hlt : ∀ i ∈ order, i < Config.regPhys) :
    (m.maxUpdatesAt src order).wf := by
  induction order generalizing m with
  | nil => exact hm
  | cons i order ih =>
    obtain ⟨hi, hrest⟩ := List.forall_mem_cons.mp hlt
    exact ih (Memory.wf_maxUpdate hm hi _) hrest

/-- Which indices are listed decides what is read, not how often or in what order. -/
theorem Memory.read_maxUpdatesAt (hm : m.wf) (src : Memory) {order : List Nat}
    (hlt : ∀ i ∈ order, i < Config.regPhys) (a : Nat) :
    (m.maxUpdatesAt src order).read a = if a ∈ order then umax (m.read a) (src.read a) else m.read a := by
  induction order generalizing m with
  | nil => rfl
  | cons i order ih =>
    obtain ⟨hi, hrest⟩ := List.forall_mem_cons.mp hlt
    rw [Memory.maxUpdatesAt_cons, ih (Memory.wf_maxUpdate hm hi _) hrest, Memory.read_maxUpdate hm]
    by_cases hia : i = a
    · subst hia
      simp [umax_umax_self]
    · simp [hia, Ne.symm hia]

/-- MERGE's loop is the max-updates at any list of the indices below n. -/
theorem Memory.maxUpdateFrom_eq_maxUpdatesAt {src : Memory} {n : Nat} {order : List Nat} (hm : m.wf) (hsrc : src.wf)
    (hn : n ≤ Config.regPhys) (horder : ∀ i, i ∈ order ↔ i < n) :
    m.maxUpdateFrom src n = m.maxUpdatesAt src order := by
  have hlt : ∀ i ∈ order, i < Config.regPhys := fun i hi => ((horder i).mp hi).trans_le hn
  refine Memory.ext_read (Memory.wf_maxUpdateFrom hm hsrc.2.2 n) (Memory.wf_maxUpdatesAt hm src hlt) fun a => ?_
  rw [Memory.read_maxUpdateFrom hm hsrc, Memory.read_maxUpdatesAt hm src hlt]
  exact if_congr (horder a).symm rfl rfl

/-- MERGE's loop as numbers. -/
theorem Memory.toNat_read_maxUpdateFrom {src : Memory} (hm : m.wf) (hsrc : src.wf) (n a : Nat) :
    ((m.maxUpdateFrom src n).read a).toNat =
      if a < n then max (m.read a).toNat (src.read a).toNat else (m.read a).toNat := by
  rw [Memory.read_maxUpdateFrom hm hsrc, apply_ite BitVec.toNat, umax_toNat]

theorem Memory.le_toNat_read_maxUpdateFrom {src : Memory} (hm : m.wf) (hsrc : src.wf) (n a : Nat) :
    (m.read a).toNat ≤ ((m.maxUpdateFrom src n).read a).toNat := by
  rw [Memory.toNat_read_maxUpdateFrom hm hsrc]
  split
  · exact le_max_left _ _
  · exact le_rfl

/-- Two merges are one merge of a source that is the maximum of the two below n. -/
theorem Memory.maxUpdateFrom_maxUpdateFrom {b c d : Memory} {n : Nat} (hm : m.wf) (hb : b.wf) (hc : c.wf) (hd : d.wf)
    (hmax : ∀ a, a < n → (d.read a).toNat = max (b.read a).toNat (c.read a).toNat) :
    (m.maxUpdateFrom b n).maxUpdateFrom c n = m.maxUpdateFrom d n := by
  have hmb : (m.maxUpdateFrom b n).wf := Memory.wf_maxUpdateFrom hm hb.2.2 n
  refine Memory.ext_read (Memory.wf_maxUpdateFrom hmb hc.2.2 n) (Memory.wf_maxUpdateFrom hm hd.2.2 n) fun a =>
    BitVec.eq_of_toNat_eq ?_
  rw [Memory.toNat_read_maxUpdateFrom hmb hc, Memory.toNat_read_maxUpdateFrom hm hb,
    Memory.toNat_read_maxUpdateFrom hm hd]
  split
  · next ha => rw [hmax a ha, max_assoc]
  · rfl

theorem Memory.maxUpdateFrom_idempotent {b : Memory} (hm : m.wf) (hb : b.wf) (n : Nat) :
    (m.maxUpdateFrom b n).maxUpdateFrom b n = m.maxUpdateFrom b n :=
  Memory.maxUpdateFrom_maxUpdateFrom hm hb hb hb fun _ _ => (max_self _).symm

theorem Memory.maxUpdateFrom_right_comm {b c : Memory} (hm : m.wf) (hb : b.wf) (hc : c.wf) (n : Nat) :
    (m.maxUpdateFrom b n).maxUpdateFrom c n = (m.maxUpdateFrom c n).maxUpdateFrom b n := by
  have hmb : (m.maxUpdateFrom b n).wf := Memory.wf_maxUpdateFrom hm hb.2.2 n
  have hmc : (m.maxUpdateFrom c n).wf := Memory.wf_maxUpdateFrom hm hc.2.2 n
  refine Memory.ext_read (Memory.wf_maxUpdateFrom hmb hc.2.2 n) (Memory.wf_maxUpdateFrom hmc hb.2.2 n) fun a => ?_
  rw [Memory.read_maxUpdateFrom hmb hc, Memory.read_maxUpdateFrom hm hb, Memory.read_maxUpdateFrom hmc hb,
    Memory.read_maxUpdateFrom hm hc]
  split
  · exact umax_right_comm _ _ _
  · rfl

/-- A max-update of one register may come before or after the loop. -/
theorem Memory.maxUpdateFrom_maxUpdate_comm {b : Memory} {j : Nat} (hm : m.wf) (hb : b.wf) (hj : j < Config.regPhys)
    (v : Byte) (n : Nat) : (m.maxUpdateFrom b n).maxUpdate j v = (m.maxUpdate j v).maxUpdateFrom b n := by
  have hmb : (m.maxUpdateFrom b n).wf := Memory.wf_maxUpdateFrom hm hb.2.2 n
  have hmj : (m.maxUpdate j v).wf := Memory.wf_maxUpdate hm hj v
  refine Memory.ext_read (Memory.wf_maxUpdate hmb hj v) (Memory.wf_maxUpdateFrom hmj hb.2.2 n) fun a => ?_
  rw [Memory.read_maxUpdate hmb, Memory.read_maxUpdateFrom hm hb, Memory.read_maxUpdateFrom hm hb,
    Memory.read_maxUpdateFrom hmj hb, Memory.read_maxUpdate hm]
  by_cases hja : j = a
  · subst hja
    by_cases hjn : j < n
    · simp [hjn, umax_right_comm]
    · simp [hjn]
  · simp [hja]

end

/-! ## What MERGE answers -/

theorem wordsOf_merge : WordsOf 3#4 argOnly (fun cw => .merge (cw.extractLsb' 32 16).toNat) :=
  wordsOf_argOnly fun cw hrsv hopc => by rw [decode_of_rsv_zero hrsv, hopc]; rfl

theorem exec_merge_of_match {s : State} (hcfg : s.cfgValid = true) :
    exec (.merge s.prec.toNat) s =
      respond (some .merge) .ok 0#32 { s with reg := s.reg.maxUpdateFrom s.src (regCount s) } :=
  (whenConfigured_true _ hcfg).trans (if_neg fun hne => hne rfl)

theorem exec_merge_of_unconfigured {s : State} (hcfg : s.cfgValid = false) (q : Nat) :
    exec (.merge q) s = raise (some .merge) .notConfigured s :=
  whenConfigured_false _ hcfg

theorem exec_merge_of_mismatch {s : State} (hcfg : s.cfgValid = true) {q : Nat} (hq : q ≠ s.prec.toNat) :
    exec (.merge q) s = raise (some .merge) .precisionMismatch s :=
  (whenConfigured_true _ hcfg).trans (if_pos hq)

/-- A MERGE that raises an error changes nothing but the response, and its state drives no source address. -/
theorem raise_merge_frame {st : Status} (hst : st ≠ .ok) (s : State) :
    ∃ t, raise (some .merge) st s = .next t ∧ Answers t (some .merge) st 0#32 ∧ SameCounter s t ∧ SameHostSide s t ∧
      ∀ e : Edge, msAddr t e = none :=
  ⟨_, rfl, rfl, ⟨rfl, rfl, rfl⟩, ⟨rfl, rfl, rfl, rfl⟩, fun e => mergeAddressBelowM.2 _ e _ rfl (.inr (.inr hst))⟩

/-- Settles O42: the words by the decoder, the outcomes by MERGE's two checks, the registers by its loop. -/
theorem mergeTakesRegisterwiseMax : Obligations.MergeTakesRegisterwiseMax := by
  unfold Obligations.MergeTakesRegisterwiseMax
  refine ⟨wordsOf_merge, fun q s hcfg hq hreg hsrc => ?_, fun q s hcfg => ?_, fun q s hcfg hne => ?_⟩
  · subst hq
    rw [exec_merge_of_match hcfg, respond_eq]
    exact ⟨_, rfl, rfl, Memory.toNat_read_maxUpdateFrom hreg hsrc _, rfl, rfl, rfl, rfl, rfl, rfl⟩
  · rw [exec_merge_of_unconfigured hcfg]
    exact raise_merge_frame (by decide) s
  · rw [exec_merge_of_mismatch hcfg hne]
    exact raise_merge_frame (by decide) s

/-- Settles O43: a permutation of 0 to M-1 lists exactly the indices below M. -/
theorem mergeOrderIsImmaterial : Obligations.MergeOrderIsImmaterial := by
  unfold Obligations.MergeOrderIsImmaterial
  intro s order hinv hcfg hperm
  have hM : regCount s ≤ Config.regPhys := regCount_le_of_inv hinv
  have horder : ∀ i, i ∈ order ↔ i < regCount s := fun _ => hperm.mem_iff.trans List.mem_range
  obtain ⟨hreg, hsrc, -, -⟩ := hinv
  exact ⟨_, exec_merge_of_match hcfg, Memory.maxUpdateFrom_eq_maxUpdatesAt hreg hsrc hM horder⟩

/-! ## The laws of MERGE -/

theorem regCount_of_prec_eq {s t : State} (h : t.prec = s.prec) : regCount t = regCount s := by
  rw [regCount, h, regCount]

theorem regCount_of_merged {s t : State} {src : Memory} (h : Merged s src t) : regCount t = regCount s := by
  obtain ⟨-, hprec, -⟩ := counterOf_eq_iff.mp (counterOf_of_merged h)
  exact regCount_of_prec_eq hprec

theorem reg_of_merged {s t : State} {src : Memory} (h : Merged s src t) :
    t.reg = s.reg.maxUpdateFrom src (regCount s) :=
  reg_of_counterOf_eq (counterOf_of_merged h)

/-- The file of two merges, one after the other. -/
theorem reg_of_merged_merged {s t u : State} {b c : Memory} (hfirst : Merged s b t) (hsecond : Merged t c u) :
    u.reg = (s.reg.maxUpdateFrom b (regCount s)).maxUpdateFrom c (regCount s) := by
  rw [reg_of_merged hsecond, reg_of_merged hfirst, regCount_of_merged hfirst]

theorem toNat_read_of_merged {s t : State} {src : Memory} (hreg : s.reg.wf) (hsrc : src.wf) (h : Merged s src t)
    {a : Nat} (ha : a < regCount s) : (t.reg.read a).toNat = max (s.reg.read a).toNat (src.read a).toNat := by
  rw [reg_of_merged h, Memory.toNat_read_maxUpdateFrom hreg hsrc, if_pos ha]

/-- Settles O44: each law is the law of the maximum, register by register, for MERGE's loop. -/
theorem mergeLaws : Obligations.MergeLaws := by
  unfold Obligations.MergeLaws
  refine ⟨?result, ?commutes, ?associates, ?commutesWithAdd⟩
  case result =>
    rintro s b u t ⟨hreg, -, -, -⟩ rfl hb hmerged a ha
    exact toNat_read_of_merged hreg hb hmerged ha
  case commutes =>
    rintro s u s₁ u₁ ⟨hs, -, -, -⟩ ⟨hu, -, -, -⟩ hprec hs₁ hu₁ a ha
    have ha' : a < regCount u := by rwa [regCount_of_prec_eq hprec]
    refine BitVec.eq_of_toNat_eq ?_
    rw [toNat_read_of_merged hs hu hs₁ ha, toNat_read_of_merged hu hs hu₁ ha', max_comm]
  case associates =>
    rintro s sb sc sbc scb sd sbb b c d ⟨hreg, -, -, -⟩ hb hc hd hsb hsbc hsc hscb hsbb hmax hsd
    rw [reg_of_merged_merged hsb hsbc, reg_of_merged_merged hsc hscb, reg_of_merged_merged hsb hsbb,
      reg_of_merged hsd, reg_of_merged hsb]
    exact ⟨Memory.maxUpdateFrom_right_comm hreg hb hc _, (Memory.maxUpdateFrom_maxUpdateFrom hreg hb hc hd hmax).symm,
      Memory.maxUpdateFrom_idempotent hreg hb _, Memory.le_toNat_read_maxUpdateFrom hreg hb _⟩
  case commutesWithAdd =>
    intro s m ma a am b h hinv hb hm hma ha ham
    have hindex := hashIndex_lt_regPhys (prec_le_of_inv hinv) h
    obtain ⟨hreg, -, -, -⟩ := hinv
    have hcfg : s.cfgValid = true := hm.1
    obtain ⟨hcv, hpr, hrg⟩ := counterOf_eq_iff.mp (counterOf_of_merged hm)
    obtain ⟨-, hprAdd, hrgAdd⟩ := counterOf_eq_iff.mp (counterOf_of_exec_add hcfg ha)
    calc ma.reg = addedReg h m := reg_of_counterOf_eq (counterOf_of_exec_add (hcv.trans hcfg) hma)
      _ = (addedReg h s).maxUpdateFrom b (regCount s) := by
        rw [addedReg, hpr, hrg]
        exact Memory.maxUpdateFrom_maxUpdate_comm hreg hb hindex _ _
      _ = am.reg := by rw [reg_of_merged ham, hrgAdd, regCount_of_prec_eq hprAdd]

end Sys2Proof.Machine
end

section
/-! SUPPORT. 44_readout.md R120, R121: what READ answers, and reading the whole register file. -/

namespace Sys2Proof.Machine

/-! ## What READ answers -/

theorem wordsOf_read : WordsOf 4#4 argOnly (fun cw => .read (cw.extractLsb' 32 16).toNat) :=
  wordsOf_argOnly fun cw hrsv hopc => by rw [decode_of_rsv_zero hrsv, hopc]; rfl

section
variable {s : State} {k : Nat}

theorem exec_read_below (hcfg : s.cfgValid = true) (hk : k < regCount s) :
    exec (.read k) s = respond (some .read) .ok ((s.reg.read k).setWidth 32) s :=
  (whenConfigured_true _ hcfg).trans (if_neg (Nat.not_le.mpr hk))

theorem exec_read_beyond (hcfg : s.cfgValid = true) (hk : regCount s ≤ k) :
    exec (.read k) s = raise (some .read) .indexRange s :=
  (whenConfigured_true _ hcfg).trans (if_pos hk)

theorem exec_read_of_unconfigured (hcfg : s.cfgValid = false) (k : Nat) :
    exec (.read k) s = raise (some .read) .notConfigured s :=
  whenConfigured_false _ hcfg

end

/-- A command that only responds changes nothing else. -/
theorem respond_frame (op : Option Op) (st : Status) (d : Word32) (s : State) :
    ∃ t, respond op st d s = .next t ∧ Answers t op st d ∧ SameCounter s t ∧ SameHostSide s t :=
  ⟨_, rfl, rfl, ⟨rfl, rfl, rfl⟩, rfl, rfl, rfl, rfl⟩

/-- Settles O47: the words by the decoder; the two checks of R120 leave one response, which changes nothing else. -/
theorem readAnswersRegister : Obligations.ReadAnswersRegister := by
  unfold Obligations.ReadAnswersRegister
  refine ⟨wordsOf_read, fun k s hcfg hk => ?below, fun k s hcfg hk => ?beyond, fun k s hcfg => ?unconfigured⟩
  case below =>
    have hdata : ((s.reg.read k).setWidth 32).toNat = (s.reg.read k).toNat := BitVec.toNat_setWidth_of_le (by decide)
    obtain ⟨t, hnext, hanswer, hframe⟩ := respond_frame (some .read) .ok ((s.reg.read k).setWidth 32) s
    exact ⟨t, _, (exec_read_below hcfg hk).trans hnext, hanswer, hdata, hframe⟩
  case beyond =>
    rw [exec_read_beyond hcfg hk]
    exact respond_frame _ _ _ s
  case unconfigured =>
    rw [exec_read_of_unconfigured hcfg]
    exact respond_frame _ _ _ s

/-! ## Reading the whole file -/

/-- Transactions that each leave the counter as it is append their responses, in order. -/
theorem runCommands_of_counter_kept {α : Type} {c : Counter} {command : α → Word64 × Memory} {answer : α → Response}
    {l : List α} (h : ∀ a ∈ l, commandStep c (command a).1 (command a).2 = some (c, answer a)) (rs : List Response) :
    runCommands (l.map command) c rs = some (c, rs ++ l.map answer) := by
  induction l generalizing rs with
  | nil => simp [runCommands]
  | cons a l ih =>
    obtain ⟨ha, hl⟩ := List.forall_mem_cons.mp h
    simp [runCommands, ha, ih hl]

/-- One READ below M as a transaction (00_scope.md R12). M is at most 2^16 in a legal configuration, so the index fits
ARG. -/
theorem commandStep_read {s : State} {k : Nat} (hcfg : s.cfgValid = true) (hprec : s.prec.toNat ≤ 16)
    (hk : k < regCount s) :
    commandStep (counterOf s) (encode (.read k)) s.src =
      some (counterOf s, { status := .ok, data := (s.reg.read k).setWidth 32 }) := by
  have hfits : k < 2 ^ 16 := hk.trans_le (Nat.pow_le_pow_right (by decide) hprec)
  have hrun : runWord (encode (.read k)) s = respond (some .read) .ok ((s.reg.read k).setWidth 32) s :=
    (runWord_of_decode (decode_encode (i := .read k) (decide_eq_true hfits)) s).trans (exec_read_below hcfg hk)
  exact commandStep_of_runWord hrun rfl

theorem observe_regs {s : State} (hcfg : s.cfgValid = true) :
    (observe s).regs = (List.range (regCount s)).map s.reg.read :=
  if_pos hcfg

/-- Settles O48: each READ keeps the counter, so all of them read the one file that the observation lists. -/
theorem readingAllRegistersObservesFile : Obligations.ReadingAllRegistersObservesFile := by
  unfold Obligations.ReadingAllRegistersObservesFile
  intro s hcfg hprec
  rw [observe_regs hcfg, List.map_map]
  exact runCommands_of_counter_kept (command := fun k => (encode (.read k), s.src))
    (fun _ hk => commandStep_read hcfg hprec (List.mem_range.mp hk)) []

end Sys2Proof.Machine
end

section
/-! SUPPORT. 60_exceptions.md: every accepted word answers the first cause in the order of R139, a failing one is a
`raise` and nothing else (R133), and the only edge with no next state is the one that breaks the duty of
70_reset_and_hazards.md R162. -/

namespace Sys2Proof.Machine

/-! ## The status of an accepted word -/

/-- The outcome `o` of a command started in `s` reports a status: an error is exactly its `raise` (R133), OK is some
response. -/
inductive ReportsStatus (op : Option Op) (s : State) : Status → Host.Outcome State Fault Refusal → Prop
  | failed {st : Status} (hst : st ≠ .ok) : ReportsStatus op s st (raise op st s)
  | done (d : Word32) (u : State) : ReportsStatus op s .ok (respond op .ok d u)

section
variable {op : Option Op} {s : State} {st st' : Status} {o o' : Host.Outcome State Fault Refusal}

theorem reportsStatus_ite (c : Prop) [Decidable c] (hyes : c → ReportsStatus op s st o)
    (hno : ¬ c → ReportsStatus op s st' o') :
    ReportsStatus op s (if c then st else st') (if c then o else o') := by
  split
  · next hc => exact hyes hc
  · next hc => exact hno hc

/-- The configuration check comes before the causes of its body (R135). -/
theorem reportsStatus_whenConfigured {op : Op} (hbody : ReportsStatus (some op) s st o) :
    ReportsStatus (some op) s (if s.cfgValid = false then .notConfigured else st) (whenConfigured op s o) := by
  cases hc : s.cfgValid with
  | false =>
    rw [whenConfigured_false o hc]
    exact .failed (st := .notConfigured) (by decide)
  | true =>
    rw [whenConfigured_true o hc]
    exact hbody

theorem ReportsStatus.eq_raise (h : ReportsStatus op s st o) (hst : st ≠ .ok) : o = raise op st s := by
  cases h with
  | failed _ => rfl
  | done d u => exact absurd rfl hst

/-- An outcome that reports a status is a next state whose response carries it. -/
theorem ReportsStatus.answers (h : ReportsStatus op s st o) :
    ∃ t f, o = .next t ∧ t.inFlight = some f ∧ f.rsp.status = st := by
  cases h with
  | failed _ => exact ⟨_, _, rfl, rfl, rfl⟩
  | done d u => exact ⟨_, _, rfl, rfl, rfl⟩

end

/-- The command the response of a word names: none for an illegal word. -/
def wordOp (cw : Word64) : Option Op :=
  match decode cw with
  | .ok i => some i.op
  | .error _ => none

/-- The checks of each command stand in the order of R139. -/
theorem runWord_reportsStatus (cw : Word64) (s : State) :
    ReportsStatus (wordOp cw) s (statusInPriority cw s) (runWord cw s) := by
  unfold wordOp statusInPriority runWord
  cases decode cw with
  | error e => exact .failed (st := .illegal) (by decide)
  | ok i =>
    cases i with
    | init p => exact reportsStatus_ite (p < 4 ∨ 16 < p) (fun _ => .failed (by decide)) fun _ => .done _ _
    | add h => exact reportsStatus_whenConfigured (.done _ _)
    | merge q =>
      exact reportsStatus_whenConfigured <|
        reportsStatus_ite (q ≠ s.prec.toNat) (fun _ => .failed (by decide)) fun _ => .done _ _
    | read k =>
      exact reportsStatus_whenConfigured <|
        reportsStatus_ite (2 ^ s.prec.toNat ≤ k) (fun _ => .failed (by decide)) fun _ => .done _ _
    | clz x => exact .done _ _
    | rdcfg => exact .done _ _

/-- Settles O50: the response carries the status the word reports. -/
theorem statusFollowsPriority : Obligations.StatusFollowsPriority := by
  unfold Obligations.StatusFollowsPriority
  exact fun cw s => (runWord_reportsStatus cw s).answers

/-! ## A failing command -/

/-- No cause of an error looks at the merge source. -/
theorem statusInPriority_withSrc (cw : Word64) (m : Memory) (s : State) :
    statusInPriority cw (withSrc m s) = statusInPriority cw s := rfl

theorem status_of_runWord {cw : Word64} {s t : State} {f : InFlight} (hrun : runWord cw s = .next t)
    (hf : t.inFlight = some f) : f.rsp.status = statusInPriority cw s := by
  obtain ⟨t', f', hrun', hf', hst⟩ := statusFollowsPriority cw s
  obtain rfl := Host.Outcome.next.inj (hrun'.symm.trans hrun)
  obtain rfl := Option.some.inj (hf'.symm.trans hf)
  exact hst

/-- Settles O49: a word that fails is a `raise` under every source, because its status is the same under each. -/
theorem failingCommandChangesNothing : Obligations.FailingCommandChangesNothing := by
  unfold Obligations.FailingCommandChangesNothing
  intro cw s t f hrun hf hfail
  have hst : statusInPriority cw s ≠ .ok := by rwa [← status_of_runWord hrun hf]
  have hraise : runWord cw s = raise (wordOp cw) (statusInPriority cw s) s :=
    (runWord_reportsStatus cw s).eq_raise hst
  have hraiseSrc (m : Memory) : runWord cw (withSrc m s) = raise (wordOp cw) (statusInPriority cw s) (withSrc m s) :=
    (statusInPriority_withSrc cw m s ▸ runWord_reportsStatus cw (withSrc m s)).eq_raise hst
  obtain rfl := Host.Outcome.next.inj (hraise.symm.trans hrun)
  obtain rfl := Option.some.inj hf
  exact ⟨rfl, rfl, fun e => mergeAddressBelowM.2 _ e _ rfl (.inr (.inr hfail)), hraiseSrc⟩

/-! ## An edge with no next state -/

/-- The duty of 70_reset_and_hazards.md R162 is broken when the source changes under a MERGE that passed its checks. -/
theorem dutyBroken_iff {s : State} {e : Edge} : dutyBroken s e = true ↔
    (∃ f, s.inFlight = some f ∧ f.op = some .merge ∧ f.rsp.status = .ok) ∧ sourceAt s e ≠ s.src := by
  rw [dutyBroken, Bool.and_eq_true, mergeReading_iff, Bool.not_eq_true', decide_eq_false_iff_not]

/-- A step is refused at an edge out of reset that breaks the duty, and gives a next state at every other. -/
theorem step_refused_or_safe (s : State) :
    (((currentEdge s).rstN = true ∧ dutyBroken s (currentEdge s) = true) ∧ step s = .refused .mergeSourceChanged) ∨
    (¬ ((currentEdge s).rstN = true ∧ dutyBroken s (currentEdge s) = true) ∧ safeStep s) := by
  rcases edgeAction_cases s with ⟨hr, h⟩ | ⟨hbroken, h⟩ |
    ⟨-, hd, ⟨f, -, -, h⟩ | ⟨f, -, -, h⟩ | ⟨-, -, h⟩ | ⟨-, -, h⟩⟩
  · exact .inr ⟨by simp [hr], _, step_of_settled h⟩
  · exact .inl ⟨hbroken, step_of_refused h⟩
  · exact .inr ⟨by simp [hd], _, step_of_settled h⟩
  · exact .inr ⟨by simp [hd], _, step_of_settled h⟩
  · obtain ⟨t, hrun⟩ := runWord_isNext (currentEdge s).cmdWord (pastEdge s (currentEdge s))
    exact .inr ⟨by simp [hd], t, (step_of_accepted h).trans hrun⟩
  · exact .inr ⟨by simp [hd], _, step_of_settled h⟩

/-- Settles O21: the two outcomes of a step, the refused one with the broken duty spelled out. -/
theorem stepStopsOnlyOnBrokenDuty : Obligations.StepStopsOnlyOnBrokenDuty := by
  unfold Obligations.StepStopsOnlyOnBrokenDuty
  intro s
  rw [← dutyBroken_iff]
  rcases step_refused_or_safe s with ⟨hbroken, hstep⟩ | ⟨hkept, t, hstep⟩
  · simp [hstep, hbroken, eq_comm]
  · refine ⟨fun r => by simp [hstep], fun r => ?_, fun _ => ⟨t, hstep⟩⟩
    rw [hstep]
    exact iff_of_false (by simp) fun ⟨_, hbroken⟩ => hkept hbroken

end Sys2Proof.Machine
end

section
/-! SUPPORT. 70_reset_and_hazards.md: reset, the acceptance of a command, the wait for its response, and runs of clock
edges. -/

namespace Sys2Proof.Machine

/-! ## Acceptance and the pins -/

/-- Everything acceptance asks of an edge (R155), and all it hands to the command. -/
theorem acceptedAt_eq_some_iff {s : State} {x : Word64 × Memory} : acceptedAt s = some x ↔
    ((currentEdge s).rstN = true ∧ (currentEdge s).cmdValid = true ∧ s.inFlight = none) ∧
      x = ((currentEdge s).cmdWord, sourceAt s (currentEdge s)) := by
  constructor
  · intro hacc
    rcases edgeAction_cases s with ⟨-, h⟩ | ⟨-, h⟩ | ⟨hr, -, ⟨f, -, -, h⟩ | ⟨f, -, -, h⟩ | ⟨hidle, hv, h⟩ | ⟨-, -, h⟩⟩ <;>
      simp only [acceptedAt, h, reduceCtorEq, Option.some.injEq] at hacc
    exact ⟨⟨hr, hv, hidle⟩, hacc.symm⟩
  · rintro ⟨⟨hr, hv, hidle⟩, rfl⟩
    simp [acceptedAt, edgeAction, hr, hv, hidle, dutyBroken_idle hidle]

theorem exists_acceptedAt_iff {s : State} : (∃ x, acceptedAt s = some x) ↔
    (currentEdge s).rstN = true ∧ (currentEdge s).cmdValid = true ∧ s.inFlight = none := by
  simp [acceptedAt_eq_some_iff]

theorem acceptedAt_of_reset {s : State} (hr : (currentEdge s).rstN = false) : acceptedAt s = none := by
  refine Option.eq_none_iff_forall_ne_some.mpr fun x hacc => ?_
  obtain ⟨⟨hr', -⟩, -⟩ := acceptedAt_eq_some_iff.mp hacc
  simp [hr] at hr'

theorem acceptedAt_of_inFlight {s : State} (hf : s.inFlight ≠ none) : acceptedAt s = none := by
  refine Option.eq_none_iff_forall_ne_some.mpr fun x hacc => ?_
  obtain ⟨⟨-, -, hidle⟩, -⟩ := acceptedAt_eq_some_iff.mp hacc
  exact hf hidle

/-- An accepting edge runs its word. -/
theorem step_of_acceptedAt {s : State} {x : Word64 × Memory} (hacc : acceptedAt s = some x) :
    step s = runWord (currentEdge s).cmdWord (pastEdge s (currentEdge s)) := by
  obtain ⟨⟨hr, hv, hidle⟩, -⟩ := acceptedAt_eq_some_iff.mp hacc
  exact step_of_accepting hidle hr hv

theorem cmdReady_iff {s : State} {e : Edge} : cmdReady s e = true ↔ e.rstN = true ∧ s.inFlight = none := by
  rw [cmdReady, Bool.and_eq_true, Option.isNone_iff_eq_none]

theorem rspValid_of_idle {s : State} (h : s.inFlight = none) (e : Edge) : rspValid s e = false := by
  simp [rspValid, rspOut, h]

theorem rspValid_of_reset (s : State) {e : Edge} (hr : e.rstN = false) : rspValid s e = false := by
  unfold rspValid rspOut
  cases s.inFlight <;> simp [hr]

theorem rspOut_eq_some_iff {s : State} {e : Edge} {f : InFlight} {r : Response} (hf : s.inFlight = some f) :
    rspOut s e = some r ↔ (e.rstN = true ∧ reachedLatency s f = true) ∧ f.rsp = r := by
  simp [rspOut, hf]

/-- An edge action with another word on cmd_word. -/
def withWord (w : Word64) : EdgeAction → EdgeAction
  | .settled t => .settled t
  | .accepted _ t => .accepted w t
  | .refused r => .refused r

/-- cmd_word reaches nothing of an edge but the word accepted there. -/
theorem edgeAction_of_cmdWord {s : State} {e : Edge} {es : List Edge} (hpins : s.pins = e :: es) (w : Word64) :
    edgeAction { s with pins := { e with cmdWord := w } :: es } = withWord w (edgeAction s) := by
  obtain ⟨cv, pr, rg, inFlight, src, pins, taken, lat⟩ := s
  obtain rfl : pins = e :: es := hpins
  simp only [edgeAction, apply_ite (withWord w)]
  refine ite_congr rfl (fun _ => rfl) fun _ => ite_congr rfl (fun _ => rfl) fun _ => ?_
  cases inFlight with
  | none => dsimp only; rw [apply_ite (withWord w)]; rfl
  | some f => dsimp only; rw [apply_ite (withWord w)]; rfl

theorem withWord_of_not_accepted {s : State} (hacc : acceptedAt s = none) (w : Word64) :
    withWord w (edgeAction s) = edgeAction s := by
  unfold acceptedAt at hacc
  cases h : edgeAction s with
  | settled t => rfl
  | accepted cw t => simp [h] at hacc
  | refused r => rfl

theorem step_of_cmdWord {s : State} {e : Edge} {es : List Edge} (hpins : s.pins = e :: es)
    (hacc : acceptedAt s = none) (w : Word64) :
    step { s with pins := { e with cmdWord := w } :: es } = step s := by
  simp only [step, edgeAction_of_cmdWord hpins, withWord_of_not_accepted hacc]

/-- Settles O9: acceptance by its one description, the rest by what an edge does with cmd_word. -/
theorem acceptanceRule : Obligations.AcceptanceRule := by
  unfold Obligations.AcceptanceRule
  intro s e es hpins
  obtain rfl : currentEdge s = e := currentEdge_cons hpins
  refine ⟨?_, fun x hacc => ⟨?_, step_of_acceptedAt hacc⟩, step_of_cmdWord hpins⟩
  · rw [exists_acceptedAt_iff, cmdReady_iff]
    tauto
  · rw [(acceptedAt_eq_some_iff.mp hacc).2]

/-! ## Reset -/

/-- Settles O10: reset leaves the block idle, and an idle block is ready and presents nothing. -/
theorem resetState : Obligations.ResetState := by
  unfold Obligations.ResetState
  exact ⟨rfl, rfl, rfl, fun e hr => ⟨cmdReady_iff.mpr ⟨hr, rfl⟩, rspValid_of_idle rfl e⟩⟩

theorem msAddr_of_reset (s : State) {e : Edge} (hr : e.rstN = false) : msAddr s e = none := by
  refine Option.eq_none_iff_forall_ne_some.mpr fun a haddr => ?_
  obtain ⟨-, hr', -⟩ := msAddr_driven haddr
  simp [hr] at hr'

/-- Settles O11: each of the four asks for rst_n = 1. -/
theorem inResetNothingHappens : Obligations.InResetNothingHappens := by
  unfold Obligations.InResetNothingHappens
  intro s e es hpins hr
  obtain rfl : currentEdge s = e := currentEdge_cons hpins
  have hready : cmdReady s (currentEdge s) = false := by simp [cmdReady, hr]
  exact ⟨acceptedAt_of_reset hr, hready, rspValid_of_reset s hr, msAddr_of_reset s hr⟩

/-- Settles O12: the edge gives `resetEdge`, whatever the state was. -/
theorem resetAbandonsCommand : Obligations.ResetAbandonsCommand := by
  unfold Obligations.ResetAbandonsCommand
  intro s e es hpins hr
  obtain rfl : currentEdge s = e := currentEdge_cons hpins
  exact ⟨_, step_of_reset hr, rfl, rfl, rfl, rfl, rspValid_of_idle rfl, rfl, rfl, by rw [resetEdge_pins, hpins]; rfl⟩

/-! ## The response -/

/-- The edge that takes the response of the command in flight. -/
theorem step_of_taking {s : State} {f : InFlight} (hf : s.inFlight = some f) (he : undisturbed s (currentEdge s))
    (hreached : reachedLatency s f = true) (hready : (currentEdge s).rspReady = true) :
    step s = .next (takeResponse f.rsp (pastEdge s (currentEdge s))) := by
  rw [step_undisturbed hf he, if_pos (by simp [hreached, hready])]

/-- Any other undisturbed edge: the command is one cycle older. -/
theorem step_of_waiting {s : State} {f : InFlight} (hf : s.inFlight = some f) (he : undisturbed s (currentEdge s))
    (hnot : ¬ (reachedLatency s f = true ∧ (currentEdge s).rspReady = true)) :
    step s = .next (wait f (pastEdge s (currentEdge s))) := by
  rw [step_undisturbed hf he, if_neg (by simpa using hnot)]

theorem reachedLatency_iff {s : State} {f : InFlight} :
    reachedLatency s f = true ↔ latency s f.op ≤ f.age + 1 := by
  rw [reachedLatency, decide_eq_true_iff]

/-- The latency of a command is fixed by PREC and the parameters. -/
theorem latency_congr {s t : State} (hprec : t.prec = s.prec) (hlat : t.lat = s.lat) (op : Option Op) :
    latency t op = latency s op := by
  simp only [latency, hprec, hlat]

theorem one_le_latency (s : State) (op : Option Op) : 1 ≤ latency s op := le_max_left _ _

/-- A response once presented stays so while the command waits (R156). -/
theorem reachedLatency_wait {s : State} {f : InFlight} (e : Edge) (h : reachedLatency s f = true) :
    reachedLatency (wait f (pastEdge s e)) { f with age := f.age + 1 } = true := by
  have hlat : latency (wait f (pastEdge s e)) f.op = latency s f.op := latency_congr rfl rfl _
  rw [reachedLatency_iff] at h ⊢
  dsimp only
  omega

/-- Settles O14: an undisturbed edge takes the response when it is presented and rsp_ready is 1, and waits
otherwise. -/
theorem responseHeldUntilTaken : Obligations.ResponseHeldUntilTaken := by
  unfold Obligations.ResponseHeldUntilTaken
  intro s e es f hpins hr hduty hf
  obtain rfl : currentEdge s = e := currentEdge_cons hpins
  have htail : s.pins.tail = es := by rw [hpins]; rfl
  rw [rspValid_inFlight hf hr]
  refine ⟨fun r hout => ((rspOut_eq_some_iff hf).mp hout).2.symm, fun ⟨hreached, hready⟩ => ?taken,
    fun hnot => ?held⟩
  case taken =>
    exact ⟨_, step_of_taking hf ⟨hr, hduty⟩ hreached hready, rfl, rfl, ⟨rfl, rfl, rfl⟩, htail, rfl,
      rspValid_of_idle rfl⟩
  case held =>
    exact ⟨_, step_of_waiting hf ⟨hr, hduty⟩ hnot, rfl, rfl, ⟨rfl, rfl, rfl⟩, htail, rfl, fun hreached e' hr' =>
      (rspOut_eq_some_iff rfl).mpr ⟨⟨hr', reachedLatency_wait _ hreached⟩, rfl⟩⟩

/-- Settles O17: a command in flight is all that readiness and acceptance ask about, out of reset. -/
theorem oneCommandInFlight : Obligations.OneCommandInFlight := by
  unfold Obligations.OneCommandInFlight
  refine ⟨fun s e => cmdReady_iff, fun s => acceptedAt_of_inFlight, fun s x hacc => ?accepted,
    fun s hne hr hduty hvalid hready => ?taken⟩
  case accepted =>
    obtain ⟨t, hrun⟩ := runWord_isNext (currentEdge s).cmdWord (pastEdge s (currentEdge s))
    obtain ⟨f, hf, -⟩ := runWord_inFlight_taken hrun
    exact ⟨t, (step_of_acceptedAt hacc).trans hrun, fun e => by simp [cmdReady, hf]⟩
  case taken =>
    obtain ⟨f, hf⟩ := Option.ne_none_iff_exists'.mp hne
    have hreached : reachedLatency s f = true := by rwa [← rspValid_inFlight hf hr]
    exact ⟨_, step_of_taking hf ⟨hr, hduty⟩ hreached hready, fun e he => cmdReady_iff.mpr ⟨he, rfl⟩⟩

/-! ## Runs of edges -/

/-- A run one step longer, seen from its end. -/
theorem run_succ_of_run {M : Host.Core} {k : Nat} {s t : M.State} (h : M.run k s = .next t) :
    M.run (k + 1) s = M.step t := by
  induction k generalizing s with
  | zero =>
    obtain rfl := Host.Outcome.next.inj h
    simp only [Host.Core.run]
    cases M.step s <;> rfl
  | succ k ih =>
    obtain ⟨u, hu, hrun⟩ := step_of_run_succ h
    rw [run_succ_of_step _ hu, ih hrun]

/-- No step touches the input after its own edge. -/
theorem pins_of_step {s t : State} (h : step s = .next t) : t.pins = s.pins.tail := by
  rcases step_cases h with ⟨-, -, rfl⟩ | ⟨-, ⟨f, -, -, rfl⟩ | ⟨f, -, -, rfl⟩ | ⟨-, -, hrun⟩ | ⟨-, -, rfl⟩⟩
  · rfl
  · rfl
  · rfl
  · obtain ⟨op, st, d, cv, pr, rg, hshape, -⟩ :=
      runWord_shape (currentEdge s).cmdWord (pastEdge s (currentEdge s))
    obtain rfl := Host.Outcome.next.inj (hshape.symm.trans hrun)
    rfl
  · rfl

/-- What holds of the next k + 1 edges, and of an idle host's, holds of the coming edge and of the k after it. -/
theorem currentEdge_and_tail {P : Edge → Prop} {k : Nat} {s : State} (hidle : P idleEdge)
    (h : ∀ e ∈ s.pins.take (k + 1), P e) : P (currentEdge s) ∧ ∀ e ∈ s.pins.tail.take k, P e := by
  cases hpins : s.pins with
  | nil => exact ⟨by rwa [currentEdge_nil hpins], by simp⟩
  | cons e es =>
    rw [hpins, List.take_succ_cons, List.forall_mem_cons] at h
    exact ⟨by rw [currentEdge_cons hpins]; exact h.1, h.2⟩

theorem acceptedIn_of_step {s t : State} (k : Nat) (h : step s = .next t) :
    acceptedIn (k + 1) s = (acceptedAt s).toList ++ acceptedIn k t := by
  simp only [acceptedIn, h]

/-- Settles O19, by induction on the number of edges: each is one transaction or none. -/
theorem runIsSequenceOfTransactions : Obligations.RunIsSequenceOfTransactions := by
  unfold Obligations.RunIsSequenceOfTransactions
  intro k s t hout hrun
  induction k generalizing s with
  | zero => obtain rfl := Host.Outcome.next.inj hrun; rfl
  | succ k ih =>
    obtain ⟨u, hstep : step s = .next u, hrest⟩ := step_of_run_succ hrun
    obtain ⟨hr, htail⟩ := currentEdge_and_tail (P := fun e => e.rstN = true) rfl hout
    obtain ⟨-, hnone, hsome⟩ := everyStepIsOneTransactionOrNone s u hstep
    have hu := ih u (by rwa [pins_of_step hstep]) hrest
    rw [acceptedIn_of_step k hstep]
    cases hacc : acceptedAt s with
    | none =>
      obtain ⟨hcounter, hhist⟩ := hnone hr hacc
      rwa [hcounter, hhist] at hu
    | some x =>
      obtain ⟨r, hcmd, hhist⟩ := hsome x hacc
      simpa [runCommands, hcmd, ← hhist] using hu

/-- Without a legal INIT no edge makes a counter, a reset edge least of all. -/
theorem cfgValid_of_step {s t : State} (hs : s.cfgValid = false) (hstep : step s = .next t)
    (hno : ∀ x, acceptedAt s = some x → ∀ p, 4 ≤ p → p ≤ 16 → decode x.1 ≠ .ok (.init p)) : t.cfgValid = false := by
  cases hr : (currentEdge s).rstN with
  | false => exact ((everyStepIsOneTransactionOrNone s t hstep).1 hr).1
  | true => exact (((configurationWrittenOnlyByInit s t hstep hr).1 hno).1).trans hs

/-- Settles O27, by induction on the number of edges. -/
theorem noCounterBeforeInit : Obligations.NoCounterBeforeInit := by
  unfold Obligations.NoCounterBeforeInit
  intro k s t hs hrun hno
  induction k generalizing s with
  | zero => obtain rfl := Host.Outcome.next.inj hrun; exact hs
  | succ k ih =>
    obtain ⟨u, hstep : step s = .next u, hrest⟩ := step_of_run_succ hrun
    rw [acceptedIn_of_step k hstep, List.forall_mem_append] at hno
    exact ih u (cfgValid_of_step hs hstep fun x hacc => hno.1 x (by simp [hacc])) hrest hno.2

/-- An edge that presents no command to an idle block. -/
theorem step_of_idle {s : State} (hidle : s.inFlight = none) (hr : (currentEdge s).rstN = true)
    (hv : (currentEdge s).cmdValid = false) : step s = .next (pastEdge s (currentEdge s)) :=
  step_of_settled (by simp [edgeAction, hidle, hr, hv, dutyBroken_idle hidle])

/-- Settles O18, by induction on the number of edges: each only moves the host's side on. -/
theorem idleKeepsState : Obligations.IdleKeepsState := by
  unfold Obligations.IdleKeepsState
  intro k s hidle hedges
  induction k generalizing s with
  | zero => exact ⟨s, rfl, ⟨rfl, rfl, rfl⟩, hidle, rfl, rfl⟩
  | succ k ih =>
    obtain ⟨⟨hr, hv⟩, htail⟩ := currentEdge_and_tail ⟨rfl, rfl⟩ hedges
    rw [run_succ_of_step (M := core) k (step_of_idle hidle hr hv)]
    exact ih (pastEdge s (currentEdge s)) hidle htail

/-! ## The wait for a response -/

/-- The host that drives nothing keeps its duty. -/
theorem undisturbed_idleEdge (s : State) : undisturbed s idleEdge := by
  simp [undisturbed, dutyBroken, sourceAt, idleEdge]

/-- `t` is `s` after n undisturbed edges of waiting for the response of `f`: the command is n cycles older, the edges
are used up, and nothing else that the wait looks at has moved. -/
structure Waited (s : State) (f : InFlight) (n : Nat) (t : State) : Prop where
  inFlight : t.inFlight = some { f with age := f.age + n }
  taken : t.taken = s.taken
  counter : SameCounter s t
  lat : t.lat = s.lat
  pins : t.pins = s.pins.drop n
  duty : ∀ e, undisturbed t e ↔ undisturbed s e

section
variable {s t : State} {f : InFlight} {n : Nat}

theorem waited_zero (hf : s.inFlight = some f) : Waited s f 0 s :=
  ⟨hf, rfl, ⟨rfl, rfl, rfl⟩, rfl, rfl, fun _ => Iff.rfl⟩

/-- One more edge of waiting. -/
theorem Waited.wait (h : Waited s f n t) (he : undisturbed t (currentEdge t)) :
    Waited s f (n + 1) (wait { f with age := f.age + n } (pastEdge t (currentEdge t))) where
  inFlight := rfl
  taken := h.taken
  counter := h.counter
  lat := h.lat
  pins := by rw [wait_pins, pastEdge_pins, h.pins, List.tail_drop]
  duty e := (undisturbed_wait h.inFlight he e).trans (h.duty e)

/-- The wait does not move the latency, so it is reached at an age. -/
theorem Waited.reachedLatency_iff (h : Waited s f n t) :
    reachedLatency t { f with age := f.age + n } = true ↔ latency s f.op ≤ f.age + n + 1 := by
  obtain ⟨-, hprec, -⟩ := h.counter
  rw [Machine.reachedLatency_iff, latency_congr hprec h.lat]

/-- The edge after the wait is the one that stands n edges ahead. -/
theorem Waited.currentEdge_eq (h : Waited s f n t) : currentEdge t = s.pins[n]?.getD idleEdge := by
  rw [currentEdge, h.pins, List.headD_eq_head?_getD, List.head?_drop]

theorem Waited.undisturbed_currentEdge (h : Waited s f n t) (hedges : ∀ e ∈ s.pins.take (n + 1), undisturbed s e) :
    undisturbed t (currentEdge t) := by
  rw [h.duty, h.currentEdge_eq]
  cases hget : s.pins[n]? with
  | none => exact undisturbed_idleEdge s
  | some e => exact hedges e (List.mem_of_getElem? (i := n) (by rw [List.getElem?_take_of_lt n.lt_succ_self, hget]))

/-- Short of the latency every undisturbed edge only waits (R160). -/
theorem run_waited (hf : s.inFlight = some f) (hn : f.age + n < latency s f.op)
    (hedges : ∀ e ∈ s.pins.take n, undisturbed s e) : ∃ t, Host.Core.run core n s = .next t ∧ Waited s f n t := by
  induction n with
  | zero => exact ⟨s, rfl, waited_zero hf⟩
  | succ n ih =>
    obtain ⟨t, hrun, hw⟩ := ih (by omega) fun e he => hedges e (List.take_subset_take_left _ n.le_succ he)
    have he : undisturbed t (currentEdge t) := hw.undisturbed_currentEdge hedges
    have hearly : ¬ reachedLatency t { f with age := f.age + n } = true := by
      rw [hw.reachedLatency_iff]
      omega
    exact ⟨_, (run_succ_of_run hrun).trans (step_of_waiting hw.inFlight he fun h => hearly h.1), hw.wait he⟩

end

/-- Settles O16: short of the latency the command waits, and rsp_valid compares its age with the latency. -/
theorem responseNotBeforeLatency : Obligations.ResponseNotBeforeLatency := by
  unfold Obligations.ResponseNotBeforeLatency
  intro s f n hf hn hedges
  obtain ⟨t, hrun, hw⟩ := run_waited hf hn hedges
  refine ⟨t, hrun, hw.inFlight, hw.taken, hw.counter, one_le_latency _ _, fun e hr => ?_⟩
  rw [rspValid_inFlight hw.inFlight hr, hw.reachedLatency_iff]
  omega

/-- Settles O15: the wait ends one edge short of the latency, and the last edge takes the response. -/
theorem commandAnsweredAfterLatency : Obligations.CommandAnsweredAfterLatency := by
  unfold Obligations.CommandAnsweredAfterLatency
  rintro s f hf hage hedges ⟨e, he, hready⟩
  obtain ⟨n, hn⟩ : ∃ n, latency s f.op - f.age = n + 1 := ⟨latency s f.op - f.age - 1, by omega⟩
  rw [hn] at hedges he ⊢
  obtain ⟨t, hrun, hw⟩ := run_waited hf (n := n) (by omega)
    fun e he => hedges e (List.take_subset_take_left _ n.le_succ he)
  have hlast : currentEdge t = e := by rw [hw.currentEdge_eq, show s.pins[n]? = some e from he]; rfl
  have hreached : reachedLatency t { f with age := f.age + n } = true := hw.reachedLatency_iff.mpr (by omega)
  have htake := step_of_taking hw.inFlight (hw.undisturbed_currentEdge hedges) hreached (by rwa [hlast])
  exact ⟨_, (run_succ_of_run hrun).trans htake, rfl, congrArg (· ++ [f.rsp]) hw.taken, hw.counter⟩

end Sys2Proof.Machine
end

section
/-! SUPPORT. 95_test_vectors.md section 2.1: the decode vectors. -/

namespace Sys2Proof

/-- Settles O5: an accepted word is the word of its command, which decodes from it; a word with a bit of RSV set is
rejected for that alone; in the other rejected words the decoder reads OPC and then the field that is not 0. -/
theorem specVectorWordsDecode : Obligations.SpecVectorWordsDecode := by
  unfold Obligations.SpecVectorWordsDecode
  have hinitRsv : decode 0x1001000500000000#64 = .error .reservedNonzero := decode_of_rsv_nonzero (by decide)
  have hmergeRsv : decode 0x3001000400000000#64 = .error .reservedNonzero := decode_of_rsv_nonzero (by decide)
  refine ⟨decode_encode (i := .init 5) rfl, decode_encode (i := .add 0xFFFFFFFF#32) rfl,
    decode_encode (i := .merge 4) rfl, decode_encode (i := .read 65535) rfl, decode_encode (i := .clz 0#32) rfl,
    decode_encode (i := .rdcfg) rfl, ?initData, hinitRsv, ?addArg, hmergeRsv, ?clzArg, ?rdcfgData, ?rdcfgArg,
    ?opcode0, ?opcode7, ?opcodeF⟩
  case initData | rdcfgData => rfl
  case addArg | clzArg | rdcfgArg => rfl
  case opcode0 | opcode7 | opcodeF => rfl

end Sys2Proof
end
